-- ==== Sys2Proof/Word.lean ====
section
/-! DEFINITION. The block's plain data types: bits, bytes, bit and byte sequences, command words, counters and node
weights (spec/00_scope.md R5 to R7). Types only: every conversion stands in Machine/Operands.lean. -/

namespace Sys2Proof

/-- A bit (R6). `true` is 1. -/
abbrev Bit := Bool

/-- A byte, 8 bits everywhere (R40); `y[i]` is its bit of weight 2^i (R6). -/
abbrev Byte := BitVec 8

/-- The 16-bit command word `cw[15:0]` (R70, `W_CMD` of R5). -/
abbrev CmdWord := BitVec 16

/-- One frequency counter, an unsigned 64-bit number (R110, `W_COUNT` of R5). -/
abbrev Count := BitVec 64

/-- A node weight as the node store holds it, a 72-bit number (R19, `W_WEIGHT` of R5). -/
abbrev Weight := BitVec 72

/-- A bit sequence, the value of a BitBuffer (R7, R90): the first element is the front, the last is the back. -/
abbrev BitSeq := List Bit

/-- A byte sequence (R7): a chunk, a header or an output. -/
abbrev ByteSeq := List Byte

end Sys2Proof
end

