-- ==== Sys2Proof/Syntax.lean ====
section
/-! DEFINITION. The 15 commands of the block, one constructor per row of spec/opcode_table.json, with the operands of
spec/30_encoding.md R76 and R81. Every operand has exactly the type the spec gives it (a buffer selector, a bit, a byte), so
no command can carry an operand out of range. -/

namespace Sys2Proof

/-- The three units, the agents that execute commands (spec/10_state.md R10). -/
inductive UnitId
  | b
  | e
  | d
  deriving DecidableEq, Repr

/-- The buffer selector `s` of a unit B command (R76): `bb0` is `s = 0`, `bb1` is `s = 1`. -/
inductive BufSel
  | bb0
  | bb1
  deriving DecidableEq, Repr

/-- A command (R73, R74, R75). -/
inductive Instr
  | bpushb (sel : BufSel) (b : Bit)
  | bpushf (sel : BufSel) (b : Bit)
  | bpopf (sel : BufSel)
  | bpopb (sel : BufSel)
  | bappb (sel : BufSel) (y : Byte)
  | bpack (sel : BufSel)
  | blen (sel : BufSel)
  | bappend (sel : BufSel)
  | bcopy (sel : BufSel)
  | eput (y : Byte)
  | eend
  | eflush
  | dput (y : Byte)
  | dend
  | dflush
  deriving DecidableEq, Repr

/-- The unit a command is for (R72). -/
def Instr.unit : Instr → UnitId
  | .bpushb _ _ => .b
  | .bpushf _ _ => .b
  | .bpopf _ => .b
  | .bpopb _ => .b
  | .bappb _ _ => .b
  | .bpack _ => .b
  | .blen _ => .b
  | .bappend _ => .b
  | .bcopy _ => .b
  | .eput _ => .e
  | .eend => .e
  | .eflush => .e
  | .dput _ => .d
  | .dend => .d
  | .dflush => .d

/-- The mnemonic of a command, as R73, R74 and R75 spell it. -/
def Instr.mnemonic : Instr → String
  | .bpushb _ _ => "BPUSHB"
  | .bpushf _ _ => "BPUSHF"
  | .bpopf _ => "BPOPF"
  | .bpopb _ => "BPOPB"
  | .bappb _ _ => "BAPPB"
  | .bpack _ => "BPACK"
  | .blen _ => "BLEN"
  | .bappend _ => "BAPPEND"
  | .bcopy _ => "BCOPY"
  | .eput _ => "EPUT"
  | .eend => "EEND"
  | .eflush => "EFLUSH"
  | .dput _ => "DPUT"
  | .dend => "DEND"
  | .dflush => "DFLUSH"

end Sys2Proof
end

