-- ==== Sys2Proof/WellFormed.lean ====
section
/-! DEFINITION. Which command words are legal (spec/30_encoding.md R77), said twice: by the match and mask table of R73 to
R75, and by three checks on the fields of R70 and R71. A term of `Instr` has exact operand types and needs no check of its
own; what can be ill-formed is a command WORD. -/

namespace Sys2Proof

/-- One row of the opcode map: a word `cw` selects it when `cw AND mask = pattern` (R73). -/
structure OpcodeRow where
  mnemonic : String
  pattern : CmdWord
  mask : CmdWord
  deriving DecidableEq, Repr

/-- "A word `cw` selects a row when `cw AND mask = match`" (R73). -/
def OpcodeRow.selectedBy (r : OpcodeRow) (cw : CmdWord) : Bool := cw &&& r.mask == r.pattern

/-- The rows of unit B (R73). -/
def opcodeRowsB : List OpcodeRow :=
  [⟨"BPUSHB", 0x1000, 0xF7FE⟩, ⟨"BPUSHF", 0x1100, 0xF7FE⟩, ⟨"BPOPF", 0x1200, 0xF7FF⟩, ⟨"BPOPB", 0x1300, 0xF7FF⟩,
   ⟨"BAPPB", 0x1400, 0xF700⟩, ⟨"BPACK", 0x1500, 0xF7FF⟩, ⟨"BLEN", 0x1600, 0xF7FF⟩, ⟨"BAPPEND", 0x1700, 0xF7FF⟩,
   ⟨"BCOPY", 0x1701, 0xF7FF⟩]

/-- The rows of unit E (R74). -/
def opcodeRowsE : List OpcodeRow :=
  [⟨"EPUT", 0x2000, 0xFF00⟩, ⟨"EEND", 0x2100, 0xFFFF⟩, ⟨"EFLUSH", 0x2200, 0xFFFF⟩]

/-- The rows of unit D (R75). -/
def opcodeRowsD : List OpcodeRow :=
  [⟨"DPUT", 0x3000, 0xFF00⟩, ⟨"DEND", 0x3100, 0xFFFF⟩, ⟨"DFLUSH", 0x3200, 0xFFFF⟩]

/-- The opcode map of R73, R74 and R75. -/
def opcodeTable : List OpcodeRow := opcodeRowsB ++ opcodeRowsE ++ opcodeRowsD

/-- First check of R77: `unit = cw[15:12]` is 1, 2 or 3 (R72). -/
def unitNamed (cw : CmdWord) : Bool :=
  let unit := cw.extractLsb' 12 4
  unit == 1 || unit == 2 || unit == 3

/-- Second check of R77: a unit E or D word has `funct = cw[11:8]` in 0 to 2; every `fn` of unit B is used (R73). -/
def functUsed (cw : CmdWord) : Bool :=
  cw.extractLsb' 12 4 == 1 || (cw.extractLsb' 8 4).ult 3

/-- The bits of `arg` that R71 requires to be 0, by the command the word names: none in format Y, `arg[7:1]` in formats T
and X, all of `arg` in format N. -/
def mustBeZeroMask (cw : CmdWord) : Byte :=
  if cw.extractLsb' 12 4 == 1 then
    let fn := cw.extractLsb' 8 3
    if fn == 4 then 0x00 else if fn == 0 || fn == 1 || fn == 7 then 0xFE else 0xFF
  else if cw.extractLsb' 8 4 == 0 then 0x00
  else 0xFF

/-- Third check of R77: no "must be 0" bit is set. -/
def mustBeZeroClear (cw : CmdWord) : Bool := cw.extractLsb' 0 8 &&& mustBeZeroMask cw == 0

/-- A command word is well formed (legal, R77) when it passes the three checks. -/
def WellFormed (cw : CmdWord) : Bool := unitNamed cw && functUsed cw && mustBeZeroClear cw

end Sys2Proof
end

