-- ==== Sys2Proof/Decode.lean ====
section
/-! DEFINITION. Decoding of command words (spec/30_encoding.md R70 to R77), total on all 65536 words and rejecting an illegal
word by name; the unit that answers a word; and the encoder, written from the same tables. -/

namespace Sys2Proof

/-- Why a word is illegal, in the classes of R77. All three are one cause to the host, `ILLEGAL_COMMAND` (R171). -/
inductive Illegal
  /-- `unit` is 0 or 4 to 15. -/
  | noSuchUnit
  /-- `unit` is 2 or 3 and `funct` is 3 to 15. -/
  | unusedFunct
  /-- A "must be 0" bit of `arg` is set. -/
  | mustBeZero
  deriving DecidableEq, Repr

/-- `unit = cw[15:12]` (R70). -/
def unitField (cw : CmdWord) : Nat := (cw.extractLsb' 12 4).toNat

/-- `funct = cw[11:8]` (R70). -/
def functField (cw : CmdWord) : Nat := (cw.extractLsb' 8 4).toNat

/-- `fn = cw[10:8]`, for unit B (R70). -/
def fnField (cw : CmdWord) : Nat := (cw.extractLsb' 8 3).toNat

/-- `s = cw[11]`, for unit B (R70, R76). -/
def selField (cw : CmdWord) : BufSel := if cw.getLsbD 11 then .bb1 else .bb0

/-- `arg = cw[7:0]` (R70). -/
def argField (cw : CmdWord) : Byte := cw.extractLsb' 0 8

/-- Format N (R71): no operand, `arg` must be 0. -/
def formatN (cw : CmdWord) (i : Instr) : Except Illegal Instr :=
  if argField cw = 0 then .ok i else .error .mustBeZero

/-- Format Y (R71): `y = arg` is the byte. -/
def formatY (cw : CmdWord) (i : Byte → Instr) : Except Illegal Instr := .ok (i (argField cw))

/-- Format T (R71): `b = arg[0]` is the bit, `arg[7:1]` must be 0. -/
def formatT (cw : CmdWord) (i : Bit → Instr) : Except Illegal Instr :=
  if (argField cw).extractLsb' 1 7 = 0 then .ok (i ((argField cw).getLsbD 0)) else .error .mustBeZero

/-- Format X (R71): `k = arg[0]` is the transfer kind, 0 for `BAPPEND` and 1 for `BCOPY`; `arg[7:1]` must be 0. -/
def formatX (cw : CmdWord) (append copy : Instr) : Except Illegal Instr :=
  if (argField cw).extractLsb' 1 7 = 0 then .ok (if (argField cw).getLsbD 0 then copy else append)
  else .error .mustBeZero

/-- The commands of unit B (R73). The last arm is never reached: `fn` has three bits. -/
def decodeB (cw : CmdWord) : Except Illegal Instr :=
  let s := selField cw
  match fnField cw with
  | 0 => formatT cw (.bpushb s)
  | 1 => formatT cw (.bpushf s)
  | 2 => formatN cw (.bpopf s)
  | 3 => formatN cw (.bpopb s)
  | 4 => formatY cw (.bappb s)
  | 5 => formatN cw (.bpack s)
  | 6 => formatN cw (.blen s)
  | 7 => formatX cw (.bappend s) (.bcopy s)
  | _ => .error .unusedFunct

/-- The commands of unit E (R74). -/
def decodeE (cw : CmdWord) : Except Illegal Instr :=
  match functField cw with
  | 0 => formatY cw .eput
  | 1 => formatN cw .eend
  | 2 => formatN cw .eflush
  | _ => .error .unusedFunct

/-- The commands of unit D (R75). -/
def decodeD (cw : CmdWord) : Except Illegal Instr :=
  match functField cw with
  | 0 => formatY cw .dput
  | 1 => formatN cw .dend
  | 2 => formatN cw .dflush
  | _ => .error .unusedFunct

/-- The command a word stands for (R72 to R77). -/
def decode (cw : CmdWord) : Except Illegal Instr :=
  match unitField cw with
  | 1 => decodeB cw
  | 2 => decodeE cw
  | 3 => decodeD cw
  | _ => .error .noSuchUnit

/-- Who answers a word (R72): the unit it carries the code of, or, for a word whose `unit` names no unit, the dispatcher in
front of the units (`none`). DESIGN CHOICE (log entry 8): the model has that dispatcher. -/
def answerer (cw : CmdWord) : Option UnitId :=
  match unitField cw with
  | 1 => some .b
  | 2 => some .e
  | 3 => some .d
  | _ => none

/-- A command word from its three fields (R70). -/
def wordOf (unit funct : BitVec 4) (arg : Byte) : CmdWord := unit ++ funct ++ arg

/-- The buffer selector as the bit `cw[11]` (R76). -/
def BufSel.bit : BufSel → BitVec 1
  | .bb0 => 0
  | .bb1 => 1

/-- A bit operand as `arg` of format T (R71). -/
def bitArg (b : Bit) : Byte := if b then 1 else 0

/-- A unit B word: `funct` is `s` followed by `fn` (R70, R73). -/
def wordOfB (sel : BufSel) (fn : BitVec 3) (arg : Byte) : CmdWord := wordOf 1 (sel.bit ++ fn) arg

/-- The word of a command (R73, R74, R75). -/
def encode : Instr → CmdWord
  | .bpushb sel b => wordOfB sel 0 (bitArg b)
  | .bpushf sel b => wordOfB sel 1 (bitArg b)
  | .bpopf sel => wordOfB sel 2 0
  | .bpopb sel => wordOfB sel 3 0
  | .bappb sel y => wordOfB sel 4 y
  | .bpack sel => wordOfB sel 5 0
  | .blen sel => wordOfB sel 6 0
  | .bappend sel => wordOfB sel 7 0
  | .bcopy sel => wordOfB sel 7 1
  | .eput y => wordOf 2 0 y
  | .eend => wordOf 2 1 0
  | .eflush => wordOf 2 2 0
  | .dput y => wordOf 3 0 y
  | .dend => wordOf 3 1 0
  | .dflush => wordOf 3 2 0

/-- The command word the host's numbering gives as `nbits` bits of value `w`: a word is presented whole and has no byte
order (R45, R70), so the numbering is the word's own. -/
def tableWord (nbits w : Nat) : CmdWord := BitVec.ofNat 16 (w % 2 ^ nbits)

/-- What the decoder reads from the word numbered as spec/opcode_table.json numbers it. -/
def decodeTableWord (nbits w : Nat) : Option Instr :=
  match decode (tableWord nbits w) with
  | .ok i => some i
  | .error _ => none

end Sys2Proof
end

