-- ==== Sys2Proof/Config.lean ====
section
/-! DEFINITION. The parameters of the block (spec/00_scope.md R5). The spec leaves two of them open: `THRESHOLD`, which is a
level the host drives and so stands in State (log entry 1), and `BB_CAP`, which is unbounded in the model (log entry 3).
No command of this block has an undefined result, so there is no free value here. -/

namespace Sys2Proof.Config

/-- `NSYM` (R5): the number of byte values, each of which always has a leaf. -/
@[simp, reducible] def nsym : Nat := 256

/-- `HDR_BYTES` (R5): the length of the header in bytes. -/
@[simp, reducible] def hdrBytes : Nat := 2048

/-- `HDR_BITS` (R5): the length of the header in bits. -/
@[simp, reducible] def hdrBits : Nat := 16384

/-- `NNODE` (R5): the nodes of a finished tree, 256 Terminals and 255 Interior nodes. -/
@[simp, reducible] def nnode : Nat := 511

/-- The values `THRESHOLD` may have, 0 to 2^64 − 2 (R5, R30). -/
abbrev Threshold := Fin (2 ^ 64 - 1)

/-- DESIGN CHOICE (log entry 1): the level of the `THRESHOLD` input in `State.reset`. The spec gives the parameter no value;
3 is that of the spec's own worked example (R134), and no statement rests on it. -/
def thresholdAtReset : Threshold := ⟨3, by decide⟩

end Sys2Proof.Config
end

