-- ==== Sys2Proof/Machine/State.lean ====
section
/-! DEFINITION. The state of the block as spec/10_state.md gives it, unit by unit, its reset (spec/70_reset_and_hazards.md
R190, R191), and the two ends of the host interface that the model itself adds: the inputs the host has issued and not yet
had accepted, and the responses the block has given (log entry 2). -/

namespace Sys2Proof.Machine

open Sys2Proof

/-- The encoder's state-machine register `e_state` (R13). -/
inductive EncState
  | collecting
  | encoding
  deriving DecidableEq, Repr

/-- The decoder's state-machine register `d_state` (R22). -/
inductive DecState
  | awaitingHeader
  | decoding
  deriving DecidableEq, Repr

/-- A frequency table: 256 counters of 64 bits, indexed by byte value (R16, R49, R110). -/
abbrev FreqTable := Vector Count 256

/-- `FT_empty` (R110): every counter 0. -/
def FreqTable.empty : FreqTable := Vector.replicate 256 0

/-- A node index, 0 to 510 (R50): 0 to 255 are the Terminals, 256 to 510 the Interior nodes. -/
abbrev NodeIdx := Fin 511

/-- The record of an Interior node (R19, R50). -/
structure Node where
  left : NodeIdx
  right : NodeIdx
  weight : Weight
  height : Fin 256
  deriving DecidableEq, Repr

/-- A node store (R50): position `k` holds the record of Interior node `256 + k`; the root, node 510, is the last. -/
abbrev NodeStore := Vector Node 255

/-- A code index (R20, R51): entry `v` is the codeword of byte value `v`, or no value. DEDUCED (log entry 6). -/
abbrev CodeIndex := Vector (Option BitSeq) 256

/-- A code index without any value (R20: the content from reset until the freeze). -/
def CodeIndex.absent : CodeIndex := Vector.replicate 256 none

/-- The status of a response (R78). -/
inductive Status
  | ok
  | absent
  | refused
  | fatal
  deriving DecidableEq, Repr

/-- The causes of a refusal or a fatal error (R79, R170). -/
inductive Cause
  | illegalCommand
  | unitHalted
  | protocolAfterFlush
  | indexMiss
  deriving DecidableEq, Repr

/-- A response `(st, val, data)` (R78). `val` has no fixed width in the model. -/
structure Response where
  st : Status
  val : Nat
  data : ByteSeq
  deriving DecidableEq, Repr

/-- What the host gives the block (R10, R190): a command word, or the reset of one unit. The reset of unit E carries the
level at which the host holds `THRESHOLD` from this reset to the next (R30, R193). -/
inductive HostInput
  | command (cw : CmdWord)
  | resetB
  | resetE (threshold : Config.Threshold)
  | resetD
  deriving DecidableEq, Repr

/-- Unit B (R11): two bit buffers and nothing else. -/
structure UnitB where
  bb0 : BitSeq
  bb1 : BitSeq
  deriving DecidableEq, Repr

/-- Unit E, the encoder (R12): `e_state`, `e_flushed`, `e_fatal`, `e_cnt`, `e_pend`, `e_out`, `e_node`, `e_code`. -/
structure UnitE where
  state : EncState
  flushed : Bool
  fatal : Bool
  cnt : FreqTable
  pend : ByteSeq
  out : BitSeq
  node : Option NodeStore
  code : CodeIndex
  deriving DecidableEq, Repr

/-- Unit D, the decoder (R21): `d_state`, `d_flushed`, `d_in`, `d_cnt`, `d_node`. -/
structure UnitD where
  state : DecState
  flushed : Bool
  inp : BitSeq
  cnt : Option FreqTable
  node : Option NodeStore
  deriving DecidableEq, Repr

/-- The machine. `b`, `e` and `d` are the units' own state (R10: owned exclusively). `threshold` is the level of unit E's
input `THRESHOLD` (R30). `inbox` holds the inputs the host has issued and the block has not yet taken, oldest first;
`respB`, `respE`, `respD` hold the responses each unit has given, oldest first, and `respX` those of the dispatcher, which
answers words that name no unit (R72). The last five are the model's own (log entry 2): the spec has the command stream
as an input and the responses as outputs (R34). -/
structure State where
  b : UnitB
  e : UnitE
  d : UnitD
  threshold : Config.Threshold
  inbox : List HostInput
  respB : List Response
  respE : List Response
  respD : List Response
  respX : List Response
  deriving DecidableEq, Repr

/-- Why the machine stops with a fault. -/
inductive Fault
  /-- Raised by `DEND` and `DFLUSH` when the tree walk is about to read the node store `d_node` and it has no value, which
  needs `d_state = Decoding` with `d_node` absent. No rule reads the store in that condition (R26, U20), and no state
  reached from a reset of unit D has it (R33 line 4 and 5). DESIGN CHOICE (log entry 4). Safe: the model stops where the spec gives no value to go on with. -/
  | absentNodeStore
  deriving DecidableEq, Repr

/-- Why the machine refuses a command. -/
inductive Refusal
  /-- Raised by an arm of `exec` for a command that has no meaning yet. Every command has one, so no arm raises it. Safe. -/
  | notModelled (mnemonic : String)
  deriving DecidableEq, Repr

/-- Unit B after `RESET B` (R11, R191). -/
def UnitB.reset : UnitB := { bb0 := [], bb1 := [] }

/-- Unit E after `RESET E` (R12, R191). -/
def UnitE.reset : UnitE :=
  { state := .collecting, flushed := false, fatal := false, cnt := FreqTable.empty, pend := [], out := [], node := none,
    code := CodeIndex.absent }

/-- Unit D after `RESET D` (R21, R191). -/
def UnitD.reset : UnitD :=
  { state := .awaitingHeader, flushed := false, inp := [], cnt := none, node := none }

/-- The block after the reset of all three units (R190, R191; log entry 5), with no input waiting and no response given. The
level of `THRESHOLD` is a DESIGN CHOICE (log entry 1). -/
def State.reset : State :=
  { b := UnitB.reset, e := UnitE.reset, d := UnitD.reset, threshold := Config.thresholdAtReset, inbox := [],
    respB := [], respE := [], respD := [], respX := [] }

end Sys2Proof.Machine
end

