-- ==== Sys2Proof/Machine/Operands.lean ====
section
/-! DEFINITION. Operand forms: conversions between bytes, bits and counters (spec/00_scope.md R8), the buffer a unit B
command selects (spec/30_encoding.md R76), and indexing of the tables by byte value and of the tree by node index
(spec/20_memory.md R49 to R51). -/

namespace Sys2Proof

/-- *other* of R73: `bb[1 − s]`. -/
def BufSel.other : BufSel → BufSel
  | .bb0 => .bb1
  | .bb1 => .bb0

end Sys2Proof

namespace Sys2Proof.Machine

open Sys2Proof

/-- `bits8(y)` (R8): the bit of weight 128 first. -/
def bits8 (y : Byte) : BitSeq :=
  [y.getLsbD 7, y.getLsbD 6, y.getLsbD 5, y.getLsbD 4, y.getLsbD 3, y.getLsbD 2, y.getLsbD 1, y.getLsbD 0]

/-- `byte8` (R8): of the eight bits `q`, the first gets weight 128 and the last weight 1. It is
only ever given eight (log entry 11). -/
def byte8 (q : BitSeq) : Byte := BitVec.ofNat 8 (q.foldl (fun acc bit => 2 * acc + bit.toNat) 0)

/-- `be64(c)` (R8): the eight bytes of a counter, most significant first. -/
def be64 (c : Count) : ByteSeq :=
  [c.extractLsb' 56 8, c.extractLsb' 48 8, c.extractLsb' 40 8, c.extractLsb' 32 8,
   c.extractLsb' 24 8, c.extractLsb' 16 8, c.extractLsb' 8 8, c.extractLsb' 0 8]

/-- `unbe64` (R8): of the eight bytes `ys`, the first gets weight 2^56 and the last weight 1. It is only ever given
eight (log entry 11). -/
def unbe64 (ys : ByteSeq) : Count := BitVec.ofNat 64 (ys.foldl (fun acc y => 256 * acc + y.toNat) 0)

/-- `zeros(n)` (R7). -/
def zeros (n : Nat) : BitSeq := List.replicate n false

/-- *self* of a unit B command, `bb[s]` (R76). -/
def UnitB.get (u : UnitB) : BufSel → BitSeq
  | .bb0 => u.bb0
  | .bb1 => u.bb1

/-- `bb[s] <- q`. -/
def UnitB.set (u : UnitB) (sel : BufSel) (q : BitSeq) : UnitB :=
  match sel with
  | .bb0 => { u with bb0 := q }
  | .bb1 => { u with bb1 := q }

/-- `cnt[y]` (R9). -/
def FreqTable.count (cnt : FreqTable) (y : Byte) : Count := cnt[y.toNat]'(y.isLt)

/-- `code[y]` (R9), or no value. -/
def CodeIndex.codeword (code : CodeIndex) (y : Byte) : Option BitSeq := code[y.toNat]'(y.isLt)

/-- What stands at a node index (R50): Terminal `v`, or the Interior node at position `k` of the node store. -/
inductive NodeKind
  | terminal (v : Byte)
  | interior (k : Fin 255)
  deriving DecidableEq, Repr

/-- A node index below 256 is the Terminal of that byte value; index `256 + k` is Interior node `k` of the store (R50). -/
def nodeKind (i : NodeIdx) : NodeKind :=
  if h : i.val < 256 then .terminal (BitVec.ofNat 8 i.val) else .interior ⟨i.val - 256, by omega⟩

/-- The root, node 510 (R50), as a node index. -/
def rootIdx : NodeIdx := 510

/-- The root as a position of the node store. -/
def rootPos : Fin 255 := 254

/-- The child a bit selects: 0 left, 1 right (R120, R154). -/
def Node.child (n : Node) (bit : Bit) : NodeIdx := if bit then n.right else n.left

end Sys2Proof.Machine
end

