-- ==== Sys2Proof/Machine/BitBuffer.lean ====
section
/-! DEFINITION. The nine BitBuffer operations as pure functions on bit sequences (spec/40_bitbuffer.md R90 to R99). Unit B
applies them to `bb[s]`; units E and D use them on their own `e_out` and `d_in`. -/

namespace Sys2Proof.Machine

open Sys2Proof

/-- `BB_pushBack(q, b)` (R91). -/
def bbPushBack (q : BitSeq) (bit : Bit) : BitSeq := q ++ [bit]

/-- `BB_pushFront(q, b)` (R92). -/
def bbPushFront (q : BitSeq) (bit : Bit) : BitSeq := bit :: q

/-- `BB_popFront(q)` (R93): absent (`none`) on empty, else the front bit and the rest. -/
def bbPopFront : BitSeq → Option Bit × BitSeq
  | [] => (none, [])
  | bit :: q => (some bit, q)

/-- `BB_popBack(q)` (R94): absent (`none`) on empty, else the back bit and the rest. -/
def bbPopBack (q : BitSeq) : Option Bit × BitSeq := (q.getLast?, q.dropLast)

/-- `BB_appendBytes(q, ys)` (R95): each byte is expanded MSB-first at the back. -/
def bbAppendBytes (q : BitSeq) (ys : ByteSeq) : BitSeq := q ++ ys.flatMap bits8

/-- The first `m` bytes of a bit sequence of at least `8m` bits (R96): byte `j` is `byte8` of bits `8j` to `8j + 7`. -/
def packBytes : Nat → BitSeq → ByteSeq
  | 0, _ => []
  | m + 1, q => byte8 (q.take 8) :: packBytes m (q.drop 8)

/-- `BB_toBytes(q)` (R96): `m = ceil(n / 8)` bytes, the last padded with zero bits. -/
def bbToBytes (q : BitSeq) : ByteSeq :=
  let n := q.length
  let m := (n + 7) / 8
  packBytes m (q ++ zeros (8 * m - n))

/-- `BB_length(q)` (R97), in bits. -/
def bbLength (q : BitSeq) : Nat := q.length

/-- `BB_append(self, other)` (R98): other is drained into self. -/
def bbAppend (self other : BitSeq) : BitSeq × BitSeq := (self ++ other, [])

/-- `BB_copyFrom(self, other)` (R99): other is copied to the back of self and kept. -/
def bbCopyFrom (self other : BitSeq) : BitSeq × BitSeq := (self ++ other, other)

end Sys2Proof.Machine
end

