-- ==== Sys2Proof/Machine/Flags.lean ====
section
/-! DEFINITION. The five one-bit registers (spec/10_state.md R29): their codings, what reads them, the writes a command makes
to the sticky ones, and the eight status outputs (R30). No command sets a flag from arithmetic. -/

namespace Sys2Proof.Machine

open Sys2Proof

/-- `e_state` as its bit (R12): `Collecting` = 0, `Encoding` = 1. -/
def EncState.code : EncState → Nat
  | .collecting => 0
  | .encoding => 1

/-- `d_state` as its bit (R21): `AwaitingHeader` = 0, `Decoding` = 1. -/
def DecState.code : DecState → Nat
  | .awaitingHeader => 0
  | .decoding => 1

/-- `e_flushed <- 1` (R14). -/
def UnitE.setFlushed (u : UnitE) : UnitE := { u with flushed := true }

/-- `e_fatal <- 1` (R15, R174). -/
def UnitE.setFatal (u : UnitE) : UnitE := { u with fatal := true }

/-- `d_flushed <- 1` (R23). -/
def UnitD.setFlushed (u : UnitD) : UnitD := { u with flushed := true }

/-- Steps 2 and 3 of the common prologue of unit E (R131), in the order of R178: the cause for which a legal command is
refused, if any. -/
def UnitE.refusal (u : UnitE) : Option Cause :=
  if u.fatal then some .unitHalted else if u.flushed then some .protocolAfterFlush else none

/-- Step 2 of the common prologue of unit D (R151). -/
def UnitD.refusal (u : UnitD) : Option Cause := if u.flushed then some .protocolAfterFlush else none

/-- The status output `st_e_state` (R30). -/
def State.stEState (s : State) : Nat := s.e.state.code

/-- The status output `st_e_flushed` (R30). -/
def State.stEFlushed (s : State) : Nat := s.e.flushed.toNat

/-- The status output `st_e_fatal` (R30). -/
def State.stEFatal (s : State) : Nat := s.e.fatal.toNat

/-- The status output `st_e_pend_len` (R30). -/
def State.stEPendLen (s : State) : Nat := s.e.pend.length

/-- The status output `st_e_out_len` (R30). -/
def State.stEOutLen (s : State) : Nat := s.e.out.length

/-- The status output `st_d_state` (R30). -/
def State.stDState (s : State) : Nat := s.d.state.code

/-- The status output `st_d_flushed` (R30). -/
def State.stDFlushed (s : State) : Nat := s.d.flushed.toNat

/-- The status output `st_d_in_len` (R30). -/
def State.stDInLen (s : State) : Nat := s.d.inp.length

end Sys2Proof.Machine
end

