-- ==== Sys2Proof/Machine/Ops.lean ====
section
/-! DEFINITION. Operations every command shares: giving a response (spec/30_encoding.md R78), raising a cause
(spec/60_exceptions.md R170 to R179: the one operation by which a command ends without doing its work; there is no return
from it but the unit's reset, R180), the common prologues of units E and D with the roll-back of R174, and the resets of
spec/70_reset_and_hazards.md R190. -/

namespace Sys2Proof.Machine

open Sys2Proof

/-- The code of a status (R78). -/
def Status.code : Status → BitVec 2
  | .ok => 0
  | .absent => 1
  | .refused => 2
  | .fatal => 3

/-- The code of a cause, which a response carries in `val` (R79). -/
def Cause.code : Cause → Nat
  | .illegalCommand => 1
  | .unitHalted => 2
  | .protocolAfterFlush => 3
  | .indexMiss => 4

/-- The status a cause is reported with (R79). -/
def Cause.status : Cause → Status
  | .illegalCommand => .refused
  | .unitHalted => .refused
  | .protocolAfterFlush => .refused
  | .indexMiss => .fatal

/-- `(OK, val, data)` (R78). -/
def Response.okWith (val : Nat) (data : ByteSeq) : Response := { st := .ok, val := val, data := data }

/-- `(OK, 0, [])` (R78). -/
def Response.done : Response := Response.okWith 0 []

/-- `(ABSENT, 0, [])` (R78, R175). -/
def Response.absent : Response := { st := .absent, val := 0, data := [] }

/-- The response that reports a cause (R78, R79). -/
def Response.ofCause (c : Cause) : Response := { st := c.status, val := c.code, data := [] }

/-- Unit B gives a response. -/
def State.respondB (r : Response) (s : State) : State := { s with respB := s.respB ++ [r] }

/-- Unit E gives a response. -/
def State.respondE (r : Response) (s : State) : State := { s with respE := s.respE ++ [r] }

/-- Unit D gives a response. -/
def State.respondD (r : Response) (s : State) : State := { s with respD := s.respD ++ [r] }

/-- The dispatcher gives a response (R72). -/
def State.respondX (r : Response) (s : State) : State := { s with respX := s.respX ++ [r] }

/-- A unit, or the dispatcher (`none`), gives a response. -/
def State.respond (who : Option UnitId) (r : Response) (s : State) : State :=
  match who with
  | some .b => s.respondB r
  | some .e => s.respondE r
  | some .d => s.respondD r
  | none => s.respondX r

/-- `raise <Cause>` (R9, R179), `s` being the state before the command: the three refusals change nothing; `INDEX_MISS`, which
only unit E raises (R174), sets `e_fatal` and nothing else. The cause is reported in the response. -/
def State.raise (who : Option UnitId) (c : Cause) (s : State) : State :=
  match c with
  | .illegalCommand => s.respond who (Response.ofCause c)
  | .unitHalted => s.respond who (Response.ofCause c)
  | .protocolAfterFlush => s.respond who (Response.ofCause c)
  | .indexMiss => { s with e := s.e.setFatal }.respond who (Response.ofCause c)

/-- A unit B command (R100): it is never refused; `body` gives the unit's new state and the response. -/
def runB (body : UnitB → UnitB × Response) (s : State) : Host.Outcome State Fault Refusal :=
  let r := body s.b
  .next ({ s with b := r.1 }.respondB r.2)

/-- A unit E command: the common prologue (R131), then `body`, which gives the unit's new state and the response's data, or
`none` where the code index has no codeword for a byte it must encode; then everything is rolled back and `INDEX_MISS` is
raised (R174). -/
def runE (body : UnitE → Option (UnitE × ByteSeq)) (s : State) : Host.Outcome State Fault Refusal :=
  match s.e.refusal with
  | some c => .next (s.raise (some .e) c)
  | none =>
    match body s.e with
    | none => .next (s.raise (some .e) .indexMiss)
    | some r => .next ({ s with e := r.1 }.respondE (Response.okWith 0 r.2))

/-- A unit D command: the common prologue (R151), then `body`, which gives the unit's new state and the response's data, or the
fault of reading an absent node store. -/
def runD (body : UnitD → Except Fault (UnitD × ByteSeq)) (s : State) : Host.Outcome State Fault Refusal :=
  match s.d.refusal with
  | some c => .next (s.raise (some .d) c)
  | none =>
    match body s.d with
    | .error f => .fault f
    | .ok r => .next ({ s with d := r.1 }.respondD (Response.okWith 0 r.2))

/-- `RESET B` (R190). -/
def State.resetB (s : State) : State := { s with b := UnitB.reset }

/-- `RESET E` (R190), with the level `THRESHOLD` has from here to the next `RESET E` (R193). -/
def State.resetE (t : Config.Threshold) (s : State) : State := { s with e := UnitE.reset, threshold := t }

/-- `RESET D` (R190). -/
def State.resetD (s : State) : State := { s with d := UnitD.reset }

/-- The next input of the host, if one waits, and the state once it is taken. Inputs are taken in the order the host issued
them (R55). -/
def State.takeInput (s : State) : Option (HostInput × State) :=
  match s.inbox with
  | [] => none
  | i :: rest => some (i, { s with inbox := rest })

end Sys2Proof.Machine
end

