-- ==== Sys2Proof/Machine/Buffers.lean ====
section
/-! DEFINITION. The nine commands of unit B (spec/40_bitbuffer.md R91 to R100), each the BitBuffer operation of its name
applied to *self* = `bb[s]`, with *other* = `bb[1 − s]`. -/

namespace Sys2Proof.Machine

open Sys2Proof

/-- The response to a pop (R78, R175): the bit in `val`, or `ABSENT`. -/
def popResponse : Option Bit → Response
  | none => Response.absent
  | some bit => Response.okWith bit.toNat []

/-- `BPUSHB s, b` (R91). -/
def execBpushb (sel : BufSel) (bit : Bit) (s : State) : Host.Outcome State Fault Refusal :=
  runB (fun u => (u.set sel (bbPushBack (u.get sel) bit), Response.done)) s

/-- `BPUSHF s, b` (R92). -/
def execBpushf (sel : BufSel) (bit : Bit) (s : State) : Host.Outcome State Fault Refusal :=
  runB (fun u => (u.set sel (bbPushFront (u.get sel) bit), Response.done)) s

/-- `BPOPF s` (R93). -/
def execBpopf (sel : BufSel) (s : State) : Host.Outcome State Fault Refusal :=
  runB (fun u => let p := bbPopFront (u.get sel); (u.set sel p.2, popResponse p.1)) s

/-- `BPOPB s` (R94). -/
def execBpopb (sel : BufSel) (s : State) : Host.Outcome State Fault Refusal :=
  runB (fun u => let p := bbPopBack (u.get sel); (u.set sel p.2, popResponse p.1)) s

/-- `BAPPB s, y` (R95). -/
def execBappb (sel : BufSel) (y : Byte) (s : State) : Host.Outcome State Fault Refusal :=
  runB (fun u => (u.set sel (bbAppendBytes (u.get sel) [y]), Response.done)) s

/-- `BPACK s` (R96): a pure read. -/
def execBpack (sel : BufSel) (s : State) : Host.Outcome State Fault Refusal :=
  runB (fun u => (u, Response.okWith 0 (bbToBytes (u.get sel)))) s

/-- `BLEN s` (R97). -/
def execBlen (sel : BufSel) (s : State) : Host.Outcome State Fault Refusal :=
  runB (fun u => (u, Response.okWith (bbLength (u.get sel)) [])) s

/-- `BAPPEND s` (R98). -/
def execBappend (sel : BufSel) (s : State) : Host.Outcome State Fault Refusal :=
  runB (fun u => let p := bbAppend (u.get sel) (u.get sel.other)
    ((u.set sel p.1).set sel.other p.2, Response.done)) s

/-- `BCOPY s` (R99). -/
def execBcopy (sel : BufSel) (s : State) : Host.Outcome State Fault Refusal :=
  runB (fun u => let p := bbCopyFrom (u.get sel) (u.get sel.other)
    ((u.set sel p.1).set sel.other p.2, Response.done)) s

end Sys2Proof.Machine
end

