-- ==== Sys2Proof/Machine/FreqTable.lean ====
section
/-! DEFINITION. The byte frequency table as pure functions (spec/41_freqtable_treebuilder.md R110 to R115): internal
operations of units E and D, which have no command word. -/

namespace Sys2Proof.Machine

open Sys2Proof

/-- `FT_push(cnt, y)` (R111): the counter wraps modulo 2^64; every other counter is unchanged. -/
def ftPush (cnt : FreqTable) (y : Byte) : FreqTable := cnt.set y.toNat (cnt.count y + 1) y.isLt

/-- `FT_total(cnt)` (R112): the sum of the counters, without wrap-around. -/
def ftTotal (cnt : FreqTable) : Nat := (cnt.toList.map BitVec.toNat).sum

/-- `FT_serialize(cnt)` (R113): the counters in ascending order of byte value, each big-endian. -/
def ftSerialize (cnt : FreqTable) : ByteSeq := cnt.toList.flatMap be64

/-- The first `n` counters of a header. -/
def readCounts : Nat → ByteSeq → List Count
  | 0, _ => []
  | n + 1, ys => unbe64 (ys.take 8) :: readCounts n (ys.drop 8)

theorem readCounts_length (n : Nat) (ys : ByteSeq) : (readCounts n ys).length = n := by
  induction n generalizing ys with
  | zero => rfl
  | succ n ih => simp [readCounts, ih]

/-- `FT_deserialize(hdr)` (R114): counter `v` is `unbe64` of bytes `8v` to `8v + 7`. It is only ever given 2048 bytes
(log entry 11). -/
def ftDeserialize (hdr : ByteSeq) : FreqTable := ⟨(readCounts 256 hdr).toArray, by simp [readCounts_length]⟩

end Sys2Proof.Machine
end

