-- ==== Sys2Proof/Machine/TreeBuilder.lean ====
section
/-! DEFINITION. The tree builder as a pure function of the 256 counters (spec/41_freqtable_treebuilder.md R116 to R120):
seeding, the priority order, the merge loop, the child order and the code index. -/

namespace Sys2Proof.Machine

open Sys2Proof

/-- A node as the priority structure holds it: its exact weight, its height and its index. Inside `build` weights are exact
natural numbers (R124 b); they are narrowed to 72 bits where a record is stored. DEDUCED (log entry 9). -/
structure QueueItem where
  weight : Nat
  height : Nat
  index : NodeIdx
  deriving DecidableEq, Repr

/-- The priority order (R117): lexicographic on `(weight, index)`. -/
def QueueItem.before (x y : QueueItem) : Bool :=
  Nat.blt x.weight y.weight || (Nat.beq x.weight y.weight && Nat.blt x.index.val y.index.val)

/-- Adds a node to `PQ`. The set `PQ` is held as the list of its members in priority order, so that `popmin` (R117) takes the
head; keys are distinct, so the list is a function of the set. DEDUCED (log entry 10). -/
def pqInsert (x : QueueItem) : List QueueItem → List QueueItem
  | [] => [x]
  | y :: q => if x.before y then x :: y :: q else y :: pqInsert x q

/-- Terminal `v` with its count as weight and height 0 (R116). -/
def terminalItem (p : Count × Fin 256) : QueueItem := { weight := p.1.toNat, height := 0, index := ⟨p.2.val, by omega⟩ }

/-- Step 1, seeding (R116): all 256 Terminals, those of count 0 included. -/
def pqSeed (cnt : FreqTable) : List QueueItem :=
  ((cnt.toList.zip (List.finRange 256)).map terminalItem).foldr pqInsert []

/-- Which child is left (R119), `a` popped first: the child of greater height, and `a` when the heights are equal. -/
def children (a b : QueueItem) : NodeIdx × NodeIdx :=
  if Nat.blt a.height b.height then (b.index, a.index) else (a.index, b.index)

/-- The node a merge puts back into `PQ` (R118). With `left` merges still to come after it, its index is `510 − left`. -/
def mergedItem (left : Nat) (a b : QueueItem) : QueueItem :=
  { weight := a.weight + b.weight, height := 1 + max a.height b.height, index := ⟨510 - left, by omega⟩ }

/-- The record of a merge (R118): children by R119, the sum as 72 bits, the height. -/
def mergedNode (a b : QueueItem) : Node :=
  { left := (children a b).1, right := (children a b).2, weight := BitVec.ofNat 72 (a.weight + b.weight),
    height := Fin.ofNat 256 (1 + max a.height b.height) }

/-- Steps 2 and 3, the merge loop (R118): the records made by `n` merges, in order of creation. -/
def mergeLoop : Nat → List QueueItem → List Node
  | 0, _ => []
  | n + 1, a :: b :: q => mergedNode a b :: mergeLoop n (pqInsert (mergedItem n a b) q)
  | _ + 1, _ => []

theorem pqInsert_length (x : QueueItem) (q : List QueueItem) : (pqInsert x q).length = q.length + 1 := by
  induction q with
  | nil => rfl
  | cons y q ih => unfold pqInsert; split <;> simp [ih]

theorem foldr_pqInsert_length (l : List QueueItem) : (l.foldr pqInsert []).length = l.length := by
  induction l with
  | nil => rfl
  | cons x l ih => simp [pqInsert_length, ih]

theorem pqSeed_length (cnt : FreqTable) : (pqSeed cnt).length = 256 := by simp [pqSeed, foldr_pqInsert_length]

theorem mergeLoop_length (n : Nat) (q : List QueueItem) (h : q.length = n + 1) : (mergeLoop n q).length = n := by
  induction n generalizing q with
  | zero => rfl
  | succ n ih =>
    match q, h with
    | a :: b :: q, h => simp only [mergeLoop, List.length_cons]; rw [ih]; simp [pqInsert_length] at h ⊢; omega

/-- The node store of a table (R118): exactly 255 merges, Interior node `256 + k` made by merge `k`. -/
def buildNodes (cnt : FreqTable) : NodeStore :=
  ⟨(mergeLoop 255 (pqSeed cnt)).toArray, by simp [mergeLoop_length, pqSeed_length]⟩

/-- `walk` of step 4 (R120): the leaves below node `i`, each with its path from the root. A child has a smaller index than its
parent (R50), so a fuel above the index never runs out on a built tree. -/
def leafPaths (store : NodeStore) : Nat → NodeIdx → BitSeq → List (Byte × BitSeq)
  | 0, _, _ => []
  | fuel + 1, i, path =>
    match nodeKind i with
    | .terminal v => [(v, path)]
    | .interior k =>
      leafPaths store fuel store[k].left (path ++ [false]) ++ leafPaths store fuel store[k].right (path ++ [true])

/-- Step 4, the code index (R120): `code[v]` is the path of the walk that ends on Terminal `v`. -/
def codeIndexOf (store : NodeStore) : CodeIndex :=
  let paths := leafPaths store Config.nnode rootIdx []
  Vector.ofFn fun v : Fin 256 => paths.lookup (BitVec.ofNat 8 v.val)

/-- `build(cnt)` (R116 to R120): the node store and the code index. -/
def build (cnt : FreqTable) : NodeStore × CodeIndex :=
  let store := buildNodes cnt
  (store, codeIndexOf store)

end Sys2Proof.Machine
end

