-- ==== Sys2Proof/Machine/Decoder.lean ====
section
/-! DEFINITION. The decoder, unit D (spec/43_decoder.md R150 to R156): the header step, the tree walk, and the commands
`DPUT`, `DEND` and `DFLUSH`. -/

namespace Sys2Proof.Machine

open Sys2Proof

/-- The loop of `D_walk()` (R154) from Interior node `n` with the bits `taken` of the current path consumed: the bytes emitted
and, where the input ends in mid-path, the bits to restore, in their original order. -/
def walkBits (store : NodeStore) (n : Fin 255) (taken : BitSeq) : BitSeq → ByteSeq × BitSeq
  | [] => ([], taken)
  | bit :: q =>
    match nodeKind (store[n].child bit) with
    | .terminal v => let r := walkBits store rootPos [] q; (v :: r.1, r.2)
    | .interior k => walkBits store k (taken ++ [bit]) q

/-- `D_walk()` (R154). The node store is read as soon as a bit is popped. -/
def UnitD.walk (u : UnitD) : Except Fault (UnitD × ByteSeq) :=
  match u.inp, u.node with
  | [], _ => .ok (u, [])
  | _ :: _, none => .error .absentNodeStore
  | _ :: _, some store => let r := walkBits store rootPos [] u.inp; .ok ({ u with inp := r.2 }, r.1)

/-- `D_header()` (R153): the first 16384 bits become the table and its tree; the rest stay buffered. -/
def UnitD.header (u : UnitD) : UnitD :=
  let cnt := ftDeserialize (bbToBytes (u.inp.take Config.hdrBits))
  { u with inp := u.inp.drop Config.hdrBits, cnt := some cnt, node := some (build cnt).1, state := .decoding }

/-- The effect of `DEND` (R155): wait for the whole header; the call that completes it goes straight on to walk. -/
def UnitD.endChunk (u : UnitD) : Except Fault (UnitD × ByteSeq) :=
  match u.state with
  | .awaitingHeader => if u.inp.length < Config.hdrBits then .ok (u, []) else u.header.walk
  | .decoding => u.walk

/-- The effect of `DFLUSH` (R156): that of `DEND`, then the session is closed. -/
def UnitD.flush (u : UnitD) : Except Fault (UnitD × ByteSeq) :=
  u.endChunk.map fun r => (r.1.setFlushed, r.2)

/-- The effect of `DPUT y` (R152): eight bits at the back of `d_in`. -/
def UnitD.put (y : Byte) (u : UnitD) : UnitD := { u with inp := bbAppendBytes u.inp [y] }

/-- `DPUT y` (R152). -/
def execDput (y : Byte) (s : State) : Host.Outcome State Fault Refusal :=
  runD (fun u => .ok (u.put y, [])) s

/-- `DEND` (R155). -/
def execDend (s : State) : Host.Outcome State Fault Refusal :=
  runD (fun u => u.endChunk) s

/-- `DFLUSH` (R156). -/
def execDflush (s : State) : Host.Outcome State Fault Refusal :=
  runD (fun u => u.flush) s

end Sys2Proof.Machine
end

