-- ==== Sys2Proof/Machine/Encoder.lean ====
section
/-! DEFINITION. The encoder, unit E (spec/42_encoder.md R130 to R136): the freeze, the translation of a byte, and the commands
`EPUT`, `EEND` and `EFLUSH`. -/

namespace Sys2Proof.Machine

open Sys2Proof

/-- `E_encode(y)` (R133): the codeword of `y` goes to the back of `e_out`; `none` is the index miss of R174. -/
def UnitE.encodeByte (u : UnitE) (y : Byte) : Option UnitE :=
  match u.code.codeword y with
  | none => none
  | some c => some { u with out := u.out ++ c }

/-- `for y in ys in order: E_encode(y)` (R132). -/
def UnitE.encodeBytes (u : UnitE) : ByteSeq → Option UnitE
  | [] => some u
  | y :: ys =>
    match u.encodeByte y with
    | none => none
    | some u' => u'.encodeBytes ys

/-- The first three lines of `E_freeze()` (R132): the header goes into `e_out`, the tree and the code index are built from the
frozen table, and the unit enters `Encoding`. -/
def UnitE.startEncoding (u : UnitE) : UnitE :=
  let t := build u.cnt
  { u with out := bbAppendBytes u.out (ftSerialize u.cnt), node := some t.1, code := t.2, state := .encoding }

/-- `E_freeze()` (R132): then every pending byte is encoded and `e_pend` is emptied. -/
def UnitE.freeze (u : UnitE) : Option UnitE :=
  (u.startEncoding.encodeBytes u.pend).map fun u' => { u' with pend := [] }

/-- The first two lines of `EPUT` in `Collecting` (R134): the byte is counted and held. -/
def UnitE.collect (u : UnitE) (y : Byte) : UnitE := { u with cnt := ftPush u.cnt y, pend := u.pend ++ [y] }

/-- The effect of `EPUT y` (R134): the threshold is tested after every byte, strictly. -/
def UnitE.put (t : Config.Threshold) (y : Byte) (u : UnitE) : Option UnitE :=
  match u.state with
  | .collecting => if t.val < (u.collect y).pend.length then (u.collect y).freeze else some (u.collect y)
  | .encoding => u.encodeByte y

/-- The emission of `EEND` (R135): all of `e_out` when it is byte-aligned, else nothing. -/
def UnitE.emit (u : UnitE) : UnitE × ByteSeq :=
  if u.out.length % 8 = 0 then ({ u with out := [] }, bbToBytes u.out) else (u, [])

/-- The effect of `EFLUSH` (R136): the freeze if it has not happened, then all of `e_out`, padded, and the session is closed. -/
def UnitE.flush (u : UnitE) : Option (UnitE × ByteSeq) :=
  let frozen := match u.state with
    | .collecting => u.freeze
    | .encoding => some u
  frozen.map fun u' => ({ u' with out := [] }.setFlushed, bbToBytes u'.out)

/-- `EPUT y` (R134). -/
def execEput (y : Byte) (s : State) : Host.Outcome State Fault Refusal :=
  runE (fun u => (u.put s.threshold y).map fun u' => (u', [])) s

/-- `EEND` (R135). -/
def execEend (s : State) : Host.Outcome State Fault Refusal :=
  runE (fun u => some u.emit) s

/-- `EFLUSH` (R136). -/
def execEflush (s : State) : Host.Outcome State Fault Refusal :=
  runE (fun u => u.flush) s

end Sys2Proof.Machine
end

