-- ==== Sys2Proof/Machine/Dispatch.lean ====
section
/-! DEFINITION. The meaning of every command: one arm per row of spec/opcode_table.json. -/

namespace Sys2Proof.Machine

open Sys2Proof

def exec (i : Instr) (s : State) : Host.Outcome State Fault Refusal :=
  match i with
  -- unit B (spec/40_bitbuffer.md)
  | .bpushb sel bit => Sys2Proof.Machine.execBpushb sel bit s
  | .bpushf sel bit => Sys2Proof.Machine.execBpushf sel bit s
  | .bpopf sel => Sys2Proof.Machine.execBpopf sel s
  | .bpopb sel => Sys2Proof.Machine.execBpopb sel s
  | .bappb sel y => Sys2Proof.Machine.execBappb sel y s
  | .bpack sel => Sys2Proof.Machine.execBpack sel s
  | .blen sel => Sys2Proof.Machine.execBlen sel s
  | .bappend sel => Sys2Proof.Machine.execBappend sel s
  | .bcopy sel => Sys2Proof.Machine.execBcopy sel s
  -- unit E (spec/42_encoder.md)
  | .eput y => Sys2Proof.Machine.execEput y s
  | .eend => Sys2Proof.Machine.execEend s
  | .eflush => Sys2Proof.Machine.execEflush s
  -- unit D (spec/43_decoder.md)
  | .dput y => Sys2Proof.Machine.execDput y s
  | .dend => Sys2Proof.Machine.execDend s
  | .dflush => Sys2Proof.Machine.execDflush s

end Sys2Proof.Machine
end

