-- ==== Sys2Proof/Machine/Step.lean ====
section
/-! DEFINITION. One step of the block: it takes the next input of the host and carries it out whole (spec/20_memory.md R55),
or idles when none waits (spec/60_exceptions.md R182). -/

namespace Sys2Proof.Machine

open Sys2Proof

/-- A command word is accepted: a legal word runs its command, an illegal one is refused by the unit it carries the code of or
by the dispatcher (R72, R77, R171). -/
def accept (cw : CmdWord) (s : State) : Host.Outcome State Fault Refusal :=
  match decode cw with
  | .ok i => exec i s
  | .error _ => .next (s.raise (answerer cw) .illegalCommand)

def step (s : State) : Host.Outcome State Fault Refusal :=
  match s.takeInput with
  | none => .next s
  | some (.command cw, t) => accept cw t
  | some (.resetB, t) => .next t.resetB
  | some (.resetE level, t) => .next (t.resetE level)
  | some (.resetD, t) => .next t.resetD

/-- `s` with the given command word as the host's next input: a program is the sequence of inputs the host issues (R2), so
this stands for the host issuing one command. -/
def State.withFetchWord (s : State) (nbits w : Nat) : State :=
  { s with inbox := .command (tableWord nbits w) :: s.inbox }

end Sys2Proof.Machine
end

