-- ==== Sys2Proof/Machine/Pseudo.lean ====
section
/-! DEFINITION. The pseudo-commands of spec/30_encoding.md R82 as the sequences of host inputs they expand to. -/

namespace Sys2Proof.Machine

open Sys2Proof

/-- The host issues a command (R81). -/
def issue (i : Instr) : HostInput := .command (encode i)

/-- `BAPPBYTES s, ys` (R82). -/
def bAppBytes (sel : BufSel) (ys : ByteSeq) : List HostInput := ys.map fun y => issue (.bappb sel y)

/-- `EPROCESS ys` (R82, R137). -/
def eProcess (ys : ByteSeq) : List HostInput := ys.map (fun y => issue (.eput y)) ++ [issue .eend]

/-- `DPROCESS ys` (R82, R157). -/
def dProcess (ys : ByteSeq) : List HostInput := ys.map (fun y => issue (.dput y)) ++ [issue .dend]

/-- `ESESSION chunks` (R82), with `THRESHOLD` held at `t`. -/
def eSession (t : Config.Threshold) (chunks : List ByteSeq) : List HostInput :=
  .resetE t :: (chunks.flatMap eProcess ++ [issue .eflush])

/-- `DSESSION chunks` (R82). -/
def dSession (chunks : List ByteSeq) : List HostInput := .resetD :: (chunks.flatMap dProcess ++ [issue .dflush])

end Sys2Proof.Machine
end

