-- ==== Sys2Proof/Safety.lean ====
section
/-! DEFINITION. What counts as a safe state and a safe run, and the words in which claims about trees and runs are stated
(spec/10_state.md R33, spec/41_freqtable_treebuilder.md R121 and R122, spec/70_reset_and_hazards.md R194). -/

namespace Sys2Proof.Safety

open Sys2Proof Sys2Proof.Machine

/-- Lines 1, 2, 3 and 6 of R33, for unit E with `THRESHOLD` at `t`. -/
structure EncoderInv (t : Config.Threshold) (u : UnitE) : Prop where
  collecting : u.state = .collecting →
    u.out = [] ∧ u.node = none ∧ u.code = CodeIndex.absent ∧ u.pend.length = ftTotal u.cnt ∧ u.pend.length ≤ t.val
  encoding : u.state = .encoding → u.pend = [] ∧ u.node = some (build u.cnt).1 ∧ u.code = (build u.cnt).2
  fatal : u.fatal = false
  flushed : u.flushed = true → u.state = .encoding ∧ u.out = []

/-- Line 4 of R33, and of line 5 the part that holds between any two commands, for unit D. -/
structure DecoderInv (u : UnitD) : Prop where
  awaiting : u.state = .awaitingHeader → u.cnt = none ∧ u.node = none
  decoding : u.state = .decoding → ∃ cnt, u.cnt = some cnt ∧ u.node = some (build cnt).1

/-- The invariant of R33: what holds in every state reachable from reset. -/
structure BlockInv (s : State) : Prop where
  encoder : EncoderInv s.threshold s.e
  decoder : DecoderInv s.d

/-- The height of a node (R50, R118): 0 for a Terminal, the record's for an Interior node. -/
def heightOf (store : NodeStore) (i : NodeIdx) : Nat :=
  match nodeKind i with
  | .terminal _ => 0
  | .interior k => store[k].height.val

/-- The weight of a node in the tree of a table (R19, R50): the counter of a Terminal, the record's weight of an Interior node. -/
def weightOf (cnt : FreqTable) (store : NodeStore) (i : NodeIdx) : Nat :=
  match nodeKind i with
  | .terminal v => (cnt.count v).toNat
  | .interior k => store[k].weight.toNat

/-- The priority order of R117 in the tree of a table: by weight, then by index. -/
def KeyBefore (cnt : FreqTable) (store : NodeStore) (i j : NodeIdx) : Prop :=
  weightOf cnt store i < weightOf cnt store j ∨ (weightOf cnt store i = weightOf cnt store j ∧ i < j)

/-- The nodes `PQ` holds before merge `k` (R118): those that exist by then and are no child of an earlier merge. -/
def Unmerged (store : NodeStore) (k : Fin 255) (i : NodeIdx) : Prop :=
  i.val < 256 + k.val ∧ ∀ (j : Fin 255) (bit : Bit), j < k → store[j].child bit ≠ i

/-- The node a path leads to from node `i`, 0 to the left and 1 to the right (R120); none where a Terminal ends it early. -/
def descend (store : NodeStore) (i : NodeIdx) : BitSeq → Option NodeIdx
  | [] => some i
  | bit :: path =>
    match nodeKind i with
    | .terminal _ => none
    | .interior k => descend store (store[k].child bit) path

/-- What a walk of bits `q` from the root must give (R154, R158): `out`, the bytes of the Terminals reached one after the other,
and `rest`, the bits left over, along which no Terminal is reached. -/
inductive Walks (store : NodeStore) : BitSeq → ByteSeq → BitSeq → Prop
  | stop (q : BitSeq)
      (h : ∀ path i v, path <+: q → descend store rootIdx path = some i → nodeKind i ≠ .terminal v) : Walks store q [] q
  | emit (path q : BitSeq) (out : ByteSeq) (rest : BitSeq) (i : NodeIdx) (v : Byte)
      (hpath : descend store rootIdx path = some i) (hleaf : nodeKind i = .terminal v)
      (hrest : Walks store q out rest) : Walks store (path ++ q) (v :: out) rest

/-- `code` gives every byte value its codeword: entry `v` of the index holds `code v`. -/
def IsCodeOf (index : CodeIndex) (code : Byte → BitSeq) : Prop := ∀ v, index.codeword v = some (code v)

/-- A proper prefix of a codeword (the residual of R24 and R161). -/
def ProperPrefix (index : CodeIndex) (q : BitSeq) : Prop :=
  ∃ v c rest, index.codeword v = some c ∧ rest ≠ [] ∧ c = q ++ rest

/-- The data of a list of responses, one after the other (R82, R194). -/
def dataOf (rs : List Response) : ByteSeq := rs.flatMap fun r => r.data

/-- The run in which the host issues the given inputs, in order, and the block carries out each: one step for each input. -/
def runInputs (ins : List HostInput) (s : State) : Host.Outcome State Fault Refusal :=
  Host.Core.run Sys2Proof.core ins.length { s with inbox := ins }

/-- All that unit B's commands leave alone: the other units, `THRESHOLD`, the waiting inputs and the other units' responses. -/
structure OnlyUnitB (s t : State) : Prop where
  e : t.e = s.e
  d : t.d = s.d
  threshold : t.threshold = s.threshold
  inbox : t.inbox = s.inbox
  respE : t.respE = s.respE
  respD : t.respD = s.respD
  respX : t.respX = s.respX

/-- All that unit E's commands leave alone. -/
structure OnlyUnitE (s t : State) : Prop where
  b : t.b = s.b
  d : t.d = s.d
  threshold : t.threshold = s.threshold
  inbox : t.inbox = s.inbox
  respB : t.respB = s.respB
  respD : t.respD = s.respD
  respX : t.respX = s.respX

/-- All that unit D's commands leave alone. -/
structure OnlyUnitD (s t : State) : Prop where
  b : t.b = s.b
  e : t.e = s.e
  threshold : t.threshold = s.threshold
  inbox : t.inbox = s.inbox
  respB : t.respB = s.respB
  respE : t.respE = s.respE
  respX : t.respX = s.respX

end Sys2Proof.Safety
end

