-- ==== Sys2Proof/Certificates/Slice0/Obligations.lean ====
section
/-! DEFINITION. The statements about the model, from the numbered rules of spec/. -/

open Sys2Proof Sys2Proof.Machine Sys2Proof.Safety

namespace Sys2Proof.Safety

/-- A unit B word with the given `fn` that does not match the row is refused with `ILLEGAL_COMMAND`, in every state. -/
def OtherWordsRefused (fn : Nat) (pattern mask : CmdWord) : Prop :=
  ∀ cw s, unitField cw = 1 → fnField cw = fn → cw &&& mask ≠ pattern →
    accept cw s = .next (s.respondB { st := .refused, val := 1, data := [] })

/-- The response a unit B command gave, all else but `bb[0]` and `bb[1]` being as before. -/
def AnswersB (s t : State) (r : Response) : Prop := t.respB = s.respB ++ [r] ∧ OnlyUnitB s t

/-- The response a unit E command gave, all outside unit E being as before. -/
def AnswersE (s t : State) (r : Response) : Prop := t.respE = s.respE ++ [r] ∧ OnlyUnitE s t

/-- The response a unit D command gave, all outside unit D being as before. -/
def AnswersD (s t : State) (r : Response) : Prop := t.respD = s.respD ++ [r] ∧ OnlyUnitD s t

/-- Unit E refuses nothing: it is neither halted nor flushed. -/
def OpenE (s : State) : Prop := s.e.fatal = false ∧ s.e.flushed = false

/-- The prologue of unit E (R131, steps 2 and 3) refuses the command while the unit is halted or flushed, with no state change. -/
def PrologueRefusesE (i : Instr) : Prop :=
  ∀ s, s.e.fatal = true ∨ s.e.flushed = true → exec i s = .next (s.respondE ⟨.refused, if s.e.fatal then 2 else 3, []⟩)

/-- The prologue of unit D (R151, step 2) refuses the command after the flush, with no state change. -/
def PrologueRefusesD (i : Instr) : Prop := ∀ s, s.d.flushed = true → exec i s = .next (s.respondD ⟨.refused, 3, []⟩)

/-- The command of the encoder's session that a list of events stands for: a byte is its `EPUT`, `none` is an `EEND`. -/
def encoderEvent : Option Byte → HostInput
  | some y => issue (.eput y)
  | none => issue .eend

end Sys2Proof.Safety

/-! ### Encoding -/

/-- One word of every row of R73, R74 and R75, with the operands set, decodes to its command (words of T3 to T11, T30, T40, T51
and the programs P1 to P4 of spec/95_test_vectors.md). -/
def Obligations.SpecWordsDecode : Prop :=
  decode 0x1001 = .ok (.bpushb .bb0 true) ∧ decode 0x1801 = .ok (.bpushb .bb1 true) ∧
  decode 0x1100 = .ok (.bpushf .bb0 false) ∧ decode 0x1200 = .ok (.bpopf .bb0) ∧ decode 0x1300 = .ok (.bpopb .bb0) ∧
  decode 0x14A5 = .ok (.bappb .bb0 0xA5) ∧ decode 0x1D00 = .ok (.bpack .bb1) ∧ decode 0x1E00 = .ok (.blen .bb1) ∧
  decode 0x1F00 = .ok (.bappend .bb1) ∧ decode 0x1700 = .ok (.bappend .bb0) ∧ decode 0x1F01 = .ok (.bcopy .bb1) ∧
  decode 0x2041 = .ok (.eput 0x41) ∧ decode 0x2100 = .ok .eend ∧ decode 0x2200 = .ok .eflush ∧
  decode 0x30F0 = .ok (.dput 0xF0) ∧ decode 0x3100 = .ok .dend ∧ decode 0x3200 = .ok .dflush

/-- Decoding and encoding agree, both ways: each command's word decodes to it, and a word that decodes is its command's word
(R73 to R77: every word selects one row or is illegal). -/
def Obligations.DecodeAndEncodeAgree : Prop :=
  (∀ i, decode (encode i) = .ok i) ∧ ∀ cw i, decode cw = .ok i → encode i = cw

/-- The decoder, the match and mask table and the field checks agree on every word: a word that decodes selects its command's
row and no other, an illegal word selects none, and the three checks of R77 pass exactly the words that decode. -/
def Obligations.WordsSelectTheirRowOnly : Prop :=
  ∀ cw, match decode cw with
    | .ok i => (opcodeTable.filter (·.selectedBy cw)).map OpcodeRow.mnemonic = [i.mnemonic] ∧ WellFormed cw = true
    | .error _ => opcodeTable.filter (·.selectedBy cw) = [] ∧ WellFormed cw = false

/-! ### The step and the host's inputs -/

/-- R70, R55: when the next waiting input is a command word that decodes to `i`, a step takes the word and is `exec` of `i`. -/
def Obligations.StepRunsDecodedCommand : Prop :=
  ∀ s cw rest i, s.inbox = .command cw :: rest → decode cw = .ok i → step s = exec i { s with inbox := rest }

/-- R77, R171, R72: a word that selects no row is refused with cause 1 by the unit it carries the code of, or by the dispatcher (that
there is one is the model's choice, log entry 8); no state of any unit changes, in any state, and the input after it comes next. -/
def Obligations.IllegalWordIsRefused : Prop :=
  ∀ s cw rest, s.inbox = .command cw :: rest → (opcodeTable.all fun r => !r.selectedBy cw) = true →
    ∃ t, step s = .next t ∧ t.b = s.b ∧ t.e = s.e ∧ t.d = s.d ∧ t.threshold = s.threshold ∧ t.inbox = rest ∧
      t.respB = s.respB ++ (if cw.extractLsb' 12 4 = 1 then [⟨.refused, 1, []⟩] else []) ∧
      t.respE = s.respE ++ (if cw.extractLsb' 12 4 = 2 then [⟨.refused, 1, []⟩] else []) ∧
      t.respD = s.respD ++ (if cw.extractLsb' 12 4 = 3 then [⟨.refused, 1, []⟩] else []) ∧
      t.respX = s.respX ++ (if cw.extractLsb' 12 4 ∈ [1#4, 2#4, 3#4] then [] else [⟨.refused, 1, []⟩])

/-- R191, R190: the reset input of a unit gives every piece of its state the value of R191 and touches no other unit; `State.reset`
has these values in all three units. `THRESHOLD` is not reset: the host holds it from one reset of E to the next (R30, R193), and that
the reset input brings the level is the model's choice (log entry 1). -/
def Obligations.ResetGivesSpecValues : Prop :=
  (∀ s rest, s.inbox = .resetB :: rest → step s = .next { s with b := { bb0 := [], bb1 := [] }, inbox := rest }) ∧
  (∀ s rest t, s.inbox = .resetE t :: rest → ∃ u, step s = .next { s with e := u, threshold := t, inbox := rest } ∧
    u.state = .collecting ∧ u.flushed = false ∧ u.fatal = false ∧ (∀ v, u.cnt.count v = 0) ∧ u.pend = [] ∧ u.out = [] ∧
    u.node = none ∧ (∀ v, u.code.codeword v = none) ∧ u = State.reset.e) ∧
  (∀ s rest, s.inbox = .resetD :: rest → step s = .next { s with
    d := { state := .awaitingHeader, flushed := false, inp := [], cnt := none, node := none }, inbox := rest }) ∧
  State.reset.b = { bb0 := [], bb1 := [] } ∧
  State.reset.d = { state := .awaitingHeader, flushed := false, inp := [], cnt := none, node := none }

/-- R182: with no command waiting the block is idle and keeps all its state. -/
def Obligations.IdleBlockKeepsItsState : Prop := ∀ s, s.inbox = [] → step s = .next s

/-- R78, R79: a command that gives a next state gives exactly one response, at the unit it is for, and the response has the form of
the table of R78: a value only from a pop or `BLEN`, data only from `BPACK`, `EEND`, `EFLUSH`, `DEND` and `DFLUSH`, `ABSENT` only
from a pop, and no value or data beside a cause. -/
def Obligations.EveryCommandGivesOneResponse : Prop :=
  ∀ i s t, exec i s = .next t →
    ∃ r : Response,
      t.respB = s.respB ++ (if i.unit = .b then [r] else []) ∧ t.respE = s.respE ++ (if i.unit = .e then [r] else []) ∧
      t.respD = s.respD ++ (if i.unit = .d then [r] else []) ∧ t.respX = s.respX ∧
      match r.st with
      | .ok => (r.val ≠ 0 → i.mnemonic ∈ ["BPOPF", "BPOPB", "BLEN"]) ∧
          (r.data ≠ [] → i.mnemonic ∈ ["BPACK", "EEND", "EFLUSH", "DEND", "DFLUSH"])
      | .absent => i.mnemonic ∈ ["BPOPF", "BPOPB"] ∧ r.val = 0 ∧ r.data = []
      | .refused => (r.val = 2 ∧ i.unit = .e ∨ r.val = 3 ∧ i.unit ≠ .b) ∧ r.data = []
      | .fatal => i.unit = .e ∧ r.val = 4 ∧ r.data = []

/-- R30 (b): the eight status outputs are projections of the state, with the codings of R12 and R21, and are all 0 after reset. -/
def Obligations.StatusOutputsProjectTheState : Prop :=
  (∀ s : State, (s.stEState = if s.e.state = .encoding then 1 else 0) ∧ (s.stEFlushed = if s.e.flushed then 1 else 0) ∧
    (s.stEFatal = if s.e.fatal then 1 else 0) ∧ s.stEPendLen = s.e.pend.length ∧ s.stEOutLen = s.e.out.length ∧
    (s.stDState = if s.d.state = .decoding then 1 else 0) ∧ (s.stDFlushed = if s.d.flushed then 1 else 0) ∧
    s.stDInLen = s.d.inp.length) ∧
  [State.reset.stEState, State.reset.stEFlushed, State.reset.stEFatal, State.reset.stEPendLen, State.reset.stEOutLen,
    State.reset.stDState, State.reset.stDFlushed, State.reset.stDInLen] = [0, 0, 0, 0, 0, 0, 0, 0]

/-! ### Unit B -/

/-- R91. -/
def Obligations.BpushbAddsAtTheBack : Prop :=
  (∀ cw sel bit, decode cw = .ok (.bpushb sel bit) ↔
    cw &&& 0xF7FE = 0x1000 ∧ sel = (if cw.getLsbD 11 then .bb1 else .bb0) ∧ bit = cw.getLsbD 0) ∧
  (∀ sel bit s, ∃ t, exec (.bpushb sel bit) s = .next t ∧ t.b.get sel = s.b.get sel ++ [bit] ∧
    t.b.get sel.other = s.b.get sel.other ∧ AnswersB s t ⟨.ok, 0, []⟩) ∧
  OtherWordsRefused 0 0x1000 0xF7FE

/-- R92. -/
def Obligations.BpushfAddsAtTheFront : Prop :=
  (∀ cw sel bit, decode cw = .ok (.bpushf sel bit) ↔
    cw &&& 0xF7FE = 0x1100 ∧ sel = (if cw.getLsbD 11 then .bb1 else .bb0) ∧ bit = cw.getLsbD 0) ∧
  (∀ sel bit s, ∃ t, exec (.bpushf sel bit) s = .next t ∧ t.b.get sel = [bit] ++ s.b.get sel ∧
    t.b.get sel.other = s.b.get sel.other ∧ AnswersB s t ⟨.ok, 0, []⟩) ∧
  OtherWordsRefused 1 0x1100 0xF7FE

/-- R93. The last clause: `BPUSHF s, b` then `BPOPF s` returns `b` and restores the buffer. -/
def Obligations.BpopfTakesTheFrontBit : Prop :=
  (∀ cw sel, decode cw = .ok (.bpopf sel) ↔ cw &&& 0xF7FF = 0x1200 ∧ sel = (if cw.getLsbD 11 then .bb1 else .bb0)) ∧
  (∀ sel s, s.b.get sel = [] → ∃ t, exec (.bpopf sel) s = .next t ∧ t.b = s.b ∧ AnswersB s t ⟨.absent, 0, []⟩) ∧
  (∀ sel s bit q, s.b.get sel = bit :: q → ∃ t, exec (.bpopf sel) s = .next t ∧ t.b.get sel = q ∧
    t.b.get sel.other = s.b.get sel.other ∧ AnswersB s t ⟨.ok, if bit then 1 else 0, []⟩) ∧
  OtherWordsRefused 2 0x1200 0xF7FF ∧
  (∀ sel bit s t, exec (.bpushf sel bit) s = .next t → ∃ u, exec (.bpopf sel) t = .next u ∧ u.b = s.b ∧
    u.respB = t.respB ++ [⟨.ok, if bit then 1 else 0, []⟩])

/-- R94. The last clauses: `BPUSHB s, b` then `BPOPB s` returns `b` and restores the buffer, and on a one-bit buffer the two pops
return the same bit. -/
def Obligations.BpopbTakesTheBackBit : Prop :=
  (∀ cw sel, decode cw = .ok (.bpopb sel) ↔ cw &&& 0xF7FF = 0x1300 ∧ sel = (if cw.getLsbD 11 then .bb1 else .bb0)) ∧
  (∀ sel s, s.b.get sel = [] → ∃ t, exec (.bpopb sel) s = .next t ∧ t.b = s.b ∧ AnswersB s t ⟨.absent, 0, []⟩) ∧
  (∀ sel s bit q, s.b.get sel = q ++ [bit] → ∃ t, exec (.bpopb sel) s = .next t ∧ t.b.get sel = q ∧
    t.b.get sel.other = s.b.get sel.other ∧ AnswersB s t ⟨.ok, if bit then 1 else 0, []⟩) ∧
  OtherWordsRefused 3 0x1300 0xF7FF ∧
  (∀ sel bit s t, exec (.bpushb sel bit) s = .next t → ∃ u, exec (.bpopb sel) t = .next u ∧ u.b = s.b ∧
    u.respB = t.respB ++ [⟨.ok, if bit then 1 else 0, []⟩]) ∧
  (∀ sel s bit, s.b.get sel = [bit] → exec (.bpopb sel) s = exec (.bpopf sel) s)

/-- R95. -/
def Obligations.BappbAppendsAByte : Prop :=
  (∀ cw sel y, decode cw = .ok (.bappb sel y) ↔
    cw &&& 0xF700 = 0x1400 ∧ sel = (if cw.getLsbD 11 then .bb1 else .bb0) ∧ y = cw.extractLsb' 0 8) ∧
  (∀ sel (y : Byte) s, ∃ t, exec (.bappb sel y) s = .next t ∧
    t.b.get sel = s.b.get sel ++ [y[7], y[6], y[5], y[4], y[3], y[2], y[1], y[0]] ∧
    t.b.get sel.other = s.b.get sel.other ∧ AnswersB s t ⟨.ok, 0, []⟩) ∧
  (∀ q ys zs, bbAppendBytes q [] = q ∧ bbAppendBytes q (ys ++ zs) = bbAppendBytes (bbAppendBytes q ys) zs)

/-- R96. -/
def Obligations.BpackPacksWithZeroPadding : Prop :=
  (∀ cw sel, decode cw = .ok (.bpack sel) ↔ cw &&& 0xF7FF = 0x1500 ∧ sel = (if cw.getLsbD 11 then .bb1 else .bb0)) ∧
  (∀ sel s, ∃ t data, exec (.bpack sel) s = .next t ∧ t.b = s.b ∧ AnswersB s t ⟨.ok, 0, data⟩ ∧
    data.length = ((s.b.get sel).length + 7) / 8 ∧
    ∀ j y k, data[j]? = some y → k < 8 → y.getLsbD (7 - k) = (s.b.get sel).getD (8 * j + k) false) ∧
  OtherWordsRefused 5 0x1500 0xF7FF

/-- R97. -/
def Obligations.BlenCountsBits : Prop :=
  (∀ cw sel, decode cw = .ok (.blen sel) ↔ cw &&& 0xF7FF = 0x1600 ∧ sel = (if cw.getLsbD 11 then .bb1 else .bb0)) ∧
  (∀ sel s, ∃ t, exec (.blen sel) s = .next t ∧ t.b = s.b ∧ AnswersB s t ⟨.ok, (s.b.get sel).length, []⟩) ∧
  OtherWordsRefused 6 0x1600 0xF7FF

/-- R98. -/
def Obligations.BappendDrainsTheOther : Prop :=
  (∀ cw sel, decode cw = .ok (.bappend sel) ↔ cw &&& 0xF7FF = 0x1700 ∧ sel = (if cw.getLsbD 11 then .bb1 else .bb0)) ∧
  (∀ sel s, ∃ t, exec (.bappend sel) s = .next t ∧ t.b.get sel = s.b.get sel ++ s.b.get sel.other ∧
    t.b.get sel.other = [] ∧ AnswersB s t ⟨.ok, 0, []⟩) ∧
  OtherWordsRefused 7 0x1700 0xF7FE ∧ ∀ sel : BufSel, sel.other ≠ sel

/-- R99. The last clause: `BCOPY s` followed by emptying other equals `BAPPEND s`. -/
def Obligations.BcopyKeepsTheOther : Prop :=
  (∀ cw sel, decode cw = .ok (.bcopy sel) ↔ cw &&& 0xF7FF = 0x1701 ∧ sel = (if cw.getLsbD 11 then .bb1 else .bb0)) ∧
  (∀ sel s, ∃ t, exec (.bcopy sel) s = .next t ∧ t.b.get sel = s.b.get sel ++ s.b.get sel.other ∧
    t.b.get sel.other = s.b.get sel.other ∧ AnswersB s t ⟨.ok, 0, []⟩) ∧
  OtherWordsRefused 7 0x1700 0xF7FE ∧
  (∀ sel s t u, exec (.bcopy sel) s = .next t → exec (.bappend sel) s = .next u → u.b = t.b.set sel.other [])

/-- R101, laws 1 to 7. -/
def Obligations.BitBufferLaws : Prop :=
  (∀ q bit ys, (bbPushBack q bit).length = q.length + 1 ∧ (bbPushFront q bit).length = q.length + 1 ∧
    (bbAppendBytes q ys).length = q.length + 8 * ys.length) ∧
  (∀ q bit, bbPopFront (bbPushFront q bit) = (some bit, q) ∧ bbPopBack (bbPushBack q bit) = (some bit, q)) ∧
  (∀ ys, bbToBytes (bbAppendBytes [] ys) = ys) ∧
  (∀ q, bbAppendBytes [] (bbToBytes q) = q ++ zeros ((8 - q.length % 8) % 8)) ∧
  (∀ q, (bbToBytes q).length = (q.length + 7) / 8) ∧
  (∀ q r, q.length % 8 = 0 → bbToBytes (q ++ r) = bbToBytes q ++ bbToBytes r) ∧
  (∀ (ys : ByteSeq) j y k, ys[j]? = some y → k < 8 →
    (bbPopFront ((fun q => (bbPopFront q).2)^[8 * j + k] (bbAppendBytes [] ys))).1 = some (y.getLsbD (7 - k)))

/-- R82: `BAPPBYTES s, ys` puts the bits of all the bytes at the back of `bb[s]`, one `OK` response for each byte. -/
def Obligations.BappbytesAppendsAll : Prop :=
  ∀ sel ys s, ∃ t, runInputs (bAppBytes sel ys) s = .next t ∧
    t.b = s.b.set sel (bbAppendBytes (s.b.get sel) ys) ∧ t.inbox = [] ∧
    t.respB = s.respB ++ List.replicate ys.length ⟨.ok, 0, []⟩ ∧
    t.e = s.e ∧ t.d = s.d ∧ t.threshold = s.threshold ∧ t.respE = s.respE ∧ t.respD = s.respD ∧ t.respX = s.respX

/-! ### The frequency table -/

/-- R111. The last clause: no counter of unit E is at its greatest value while it still counts, so none wraps. -/
def Obligations.PushCountsOneByte : Prop :=
  (∀ (cnt : FreqTable) v, (ftPush cnt v).count v = cnt.count v + 1 ∧
    (∀ u, u ≠ v → (ftPush cnt v).count u = cnt.count u) ∧
    (cnt.count v ≠ 0xFFFFFFFFFFFFFFFF → ((ftPush cnt v).count v).toNat = (cnt.count v).toNat + 1) ∧
    (cnt.count v = 0xFFFFFFFFFFFFFFFF → (ftPush cnt v).count v = 0)) ∧
  ∀ s v, BlockInv s → s.e.state = .collecting → s.e.cnt.count v ≠ 0xFFFFFFFFFFFFFFFF

/-- R113, R114, R42: the header is 2048 bytes and byte `8v + k` of it is `cnt[v][63 − 8k : 56 − 8k]`, and each counter read from a
header has the bytes that stand there. -/
def Obligations.HeaderBytesAreBigEndianCounters : Prop :=
  (∀ cnt : FreqTable, (ftSerialize cnt).length = 2048 ∧
    ∀ (v : Byte) (k : Nat), k < 8 → (ftSerialize cnt)[8 * v.toNat + k]? = some ((cnt.count v).extractLsb' (56 - 8 * k) 8)) ∧
  ∀ (hdr : ByteSeq) (v : Byte) (k : Nat), hdr.length = 2048 → k < 8 →
    hdr[8 * v.toNat + k]? = some (((ftDeserialize hdr).count v).extractLsb' (56 - 8 * k) 8)

/-- R115. -/
def Obligations.HeaderRoundTrip : Prop :=
  (∀ hdr : ByteSeq, hdr.length = 2048 → ftSerialize (ftDeserialize hdr) = hdr) ∧
  ∀ cnt : FreqTable, ftDeserialize (ftSerialize cnt) = cnt

/-! ### The tree of every table -/

/-- R50, R118: in the tree of every table a child has a smaller index than its parent, and each index 0 to 509 is the child of
exactly one Interior node, on one side. -/
def Obligations.BuiltTreeIsAFullTree : Prop :=
  ∀ cnt : FreqTable,
    (∀ (k : Fin 255) (bit : Bit), ((buildNodes cnt)[k].child bit).val < 256 + k.val) ∧
    ∀ i : NodeIdx, i ≠ rootIdx → ∃! kb : Fin 255 × Bit, (buildNodes cnt)[kb.1].child kb.2 = i

/-- R116 to R119: merge `k` takes the two nodes of least key among those that no earlier merge took, `a` first and `b` second, and
puts the one of greater height left, `a` when the heights are equal; the new node's height is 1 more than the greater. -/
def Obligations.EveryMergeTakesTheTwoLeastKeys : Prop :=
  ∀ (cnt : FreqTable) (k : Fin 255), let store := buildNodes cnt
    ∃ a b : NodeIdx, Unmerged store k a ∧ Unmerged store k b ∧ KeyBefore cnt store a b ∧
      (∀ c, Unmerged store k c → c = a ∨ c = b ∨ KeyBefore cnt store b c) ∧
      (store[k].left, store[k].right) = (if heightOf store a < heightOf store b then (b, a) else (a, b)) ∧
      store[k].height.val = 1 + max (heightOf store a) (heightOf store b)

/-- R118, R121 line 6, R124 (b): the weight of every Interior node is the exact sum of its children's weights (72 bits lose
nothing), and the root's weight is the total of the counters. -/
def Obligations.WeightsAreExactSums : Prop :=
  ∀ cnt : FreqTable, let store := buildNodes cnt
    (∀ k : Fin 255, store[k].weight.toNat = weightOf cnt store store[k].left + weightOf cnt store store[k].right) ∧
    weightOf cnt store rootIdx = ftTotal cnt ∧ ftTotal cnt ≤ 2 ^ 72 - 256

/-- R119, R121 lines 2 and 4: the left child of every Interior node is one lower than it and the right child is not higher than
the left; the root's height is 8 to 255. -/
def Obligations.TallerChildIsLeft : Prop :=
  ∀ cnt : FreqTable, let store := buildNodes cnt
    (∀ k : Fin 255, heightOf store store[k].left + 1 = store[k].height.val ∧
      heightOf store store[k].right ≤ heightOf store store[k].left) ∧
    8 ≤ heightOf store rootIdx ∧ heightOf store rootIdx ≤ 255

/-- R120, R121 line 3, R122 (a): every byte value has a codeword, the one path from the root to its Terminal, of 1 bit to the
height of the root. -/
def Obligations.EveryByteHasOneCodeword : Prop :=
  ∀ (cnt : FreqTable) (v : Byte), ∃ c i, (build cnt).2.codeword v = some c ∧
    descend (build cnt).1 rootIdx c = some i ∧ nodeKind i = .terminal v ∧
    1 ≤ c.length ∧ c.length ≤ heightOf (build cnt).1 rootIdx ∧
    ∀ path j, descend (build cnt).1 rootIdx path = some j → nodeKind j = .terminal v → path = c

/-- R80: the codewords of a tree are prefix-free and complete: no codeword is a prefix of another's, and every bit sequence of
255 bits or more begins with a codeword. -/
def Obligations.CodeIsPrefixFreeAndComplete : Prop :=
  ∀ cnt : FreqTable,
    (∀ u v cu cv, (build cnt).2.codeword u = some cu → (build cnt).2.codeword v = some cv → cu <+: cv → u = v) ∧
    ∀ q : BitSeq, 255 ≤ q.length → ∃ v c, (build cnt).2.codeword v = some c ∧ c <+: q

/-- R121 line 5: the path that goes left at every node is a codeword, of the root's height, the longest of the tree and at least 8
bits; so fewer than 8 zero bits from the root reach no Terminal. -/
def Obligations.AllZerosCodewordIsLongest : Prop :=
  ∀ cnt : FreqTable, ∃ v, (build cnt).2.codeword v = some (zeros (heightOf (build cnt).1 rootIdx)) ∧
    8 ≤ heightOf (build cnt).1 rootIdx ∧
    (∀ u c, (build cnt).2.codeword u = some c → c.length ≤ heightOf (build cnt).1 rootIdx) ∧
    ∀ n, n < 8 → ∀ i u, descend (build cnt).1 rootIdx (zeros n) = some i → nodeKind i ≠ .terminal u

/-- R122 (b): for counts c1 > c2 in the table, the codeword for c1 is not longer than the one for c2. -/
def Obligations.FrequentBytesGetNoLongerCodewords : Prop :=
  ∀ (cnt : FreqTable) (u v : Byte) cu cv, (cnt.count v).toNat < (cnt.count u).toNat →
    (build cnt).2.codeword u = some cu → (build cnt).2.codeword v = some cv → cu.length ≤ cv.length

/-- R125: if all 256 counters are equal, node `256 + k` has children `2k` and `2k + 1`, every codeword is the byte's own bits,
and a walk of bytes gives the bytes. -/
def Obligations.EqualCountersGiveTheIdentityCode : Prop :=
  ∀ (cnt : FreqTable) (w : Count), (∀ v, cnt.count v = w) →
    (∀ k : Fin 255, (buildNodes cnt)[k].left.val = 2 * k.val ∧ (buildNodes cnt)[k].right.val = 2 * k.val + 1) ∧
    (∀ v : Byte, (build cnt).2.codeword v = some [v[7], v[6], v[5], v[4], v[3], v[2], v[1], v[0]]) ∧
    ∀ ys : ByteSeq, Walks (build cnt).1 (ys.flatMap bits8) ys []

/-! ### Unit E -/

/-- R134, in every state in which unit E is neither halted nor flushed and the byte has a codeword if one is needed: up to
`THRESHOLD` bytes are counted and held; the byte that makes the pending count exceed it freezes the table with that byte
counted, and leaves the header and the codewords of all pending bytes in `e_out`; from then on a byte is encoded, not counted. The
rule's exceptions are the prologue's refusals (no word of its format is illegal) and the index miss. -/
def Obligations.EputCountsThenEncodes : Prop :=
  (∀ cw y, decode cw = .ok (.eput y) ↔ cw &&& 0xFF00 = 0x2000 ∧ y = cw.extractLsb' 0 8) ∧
  (∀ y, PrologueRefusesE (.eput y)) ∧
  ∀ y s, OpenE s →
    (s.e.state = .collecting → s.e.pend.length + 1 ≤ s.threshold.val → ∃ t, exec (.eput y) s = .next t ∧
      t.e = { s.e with cnt := ftPush s.e.cnt y, pend := s.e.pend ++ [y] } ∧ AnswersE s t ⟨.ok, 0, []⟩) ∧
    (s.e.state = .collecting → s.threshold.val < s.e.pend.length + 1 → ∃ t code, exec (.eput y) s = .next t ∧
      t.e = { s.e with
        state := .encoding, cnt := ftPush s.e.cnt y, pend := [], node := some (build (ftPush s.e.cnt y)).1,
        code := (build (ftPush s.e.cnt y)).2,
        out := s.e.out ++ (ftSerialize (ftPush s.e.cnt y)).flatMap bits8 ++ (s.e.pend ++ [y]).flatMap code } ∧
      IsCodeOf (build (ftPush s.e.cnt y)).2 code ∧ AnswersE s t ⟨.ok, 0, []⟩) ∧
    (∀ c, s.e.state = .encoding → s.e.code.codeword y = some c → ∃ t, exec (.eput y) s = .next t ∧
      t.e = { s.e with out := s.e.out ++ c } ∧ AnswersE s t ⟨.ok, 0, []⟩) ∧
    (s.e.state = .encoding → s.e.code.codeword y = none → exec (.eput y) s =
      .next ({ s with e := { s.e with fatal := true } }.respondE ⟨.fatal, 4, []⟩))

/-- R174: an index miss (the byte has no codeword in `Encoding`) answers `(FATAL, 4, [])`; whatever command answers `FATAL`, all of it
is undone and only `e_fatal` is set; and from a state that meets the invariants of R33 no command answers so. -/
def Obligations.IndexMissIsFatalAndUnreachable : Prop :=
  (∀ y s, OpenE s → s.e.state = .encoding → s.e.code.codeword y = none → ∃ t, exec (.eput y) s = .next t ∧
    t.e = { s.e with fatal := true } ∧ AnswersE s t ⟨.fatal, 4, []⟩) ∧
  (∀ i s t r, exec i s = .next t → t.respE = s.respE ++ [r] → r.st = .fatal →
    r = ⟨.fatal, 4, []⟩ ∧ t.e = { s.e with fatal := true } ∧ AnswersE s t r) ∧
  ∀ i s t r, BlockInv s → exec i s = .next t → t.respE = s.respE ++ [r] → r.st ≠ .fatal

/-- R135: when `e_out` is byte-aligned `EEND` returns all of it and empties it; else it returns nothing and keeps every bit. -/
def Obligations.EendEmitsWhenAligned : Prop :=
  (∀ cw, decode cw = .ok .eend ↔ cw = 0x2100) ∧
  (∀ cw s, unitField cw = 2 → functField cw = 1 → cw ≠ 0x2100 → accept cw s = .next (s.respondE ⟨.refused, 1, []⟩)) ∧
  PrologueRefusesE .eend ∧
  ∀ s, OpenE s →
    (s.e.out.length % 8 = 0 → ∃ t data, exec .eend s = .next t ∧ t.e = { s.e with out := [] } ∧
      AnswersE s t ⟨.ok, 0, data⟩ ∧ data.flatMap bits8 = s.e.out) ∧
    (s.e.out.length % 8 ≠ 0 → ∃ t, exec .eend s = .next t ∧ t.e = s.e ∧ AnswersE s t ⟨.ok, 0, []⟩)

/-- R136: `EFLUSH` freezes the table if that has not happened, returns all remaining bits, the last byte padded with zero bits,
empties `e_out` and closes the session. -/
def Obligations.EflushEmitsTheRestAndCloses : Prop :=
  (∀ cw, decode cw = .ok .eflush ↔ cw = 0x2200) ∧
  (∀ cw s, unitField cw = 2 → functField cw = 2 → cw ≠ 0x2200 → accept cw s = .next (s.respondE ⟨.refused, 1, []⟩)) ∧
  PrologueRefusesE .eflush ∧
  ∀ s, OpenE s →
    (s.e.state = .collecting → ∃ t code, exec .eflush s = .next t ∧
      t.e = { s.e with
        state := .encoding, flushed := true, pend := [], node := some (build s.e.cnt).1,
        code := (build s.e.cnt).2, out := [] } ∧ IsCodeOf (build s.e.cnt).2 code ∧
      AnswersE s t ⟨.ok, 0, bbToBytes (s.e.out ++ (ftSerialize s.e.cnt).flatMap bits8 ++ s.e.pend.flatMap code)⟩) ∧
    (s.e.state = .encoding → ∃ t, exec .eflush s = .next t ∧ t.e = { s.e with flushed := true, out := [] } ∧
      AnswersE s t ⟨.ok, 0, bbToBytes s.e.out⟩)

/-- R140: between commands at most `THRESHOLD` bytes are pending; right after the freeze `e_out` has at most
`16384 + 255 · (THRESHOLD + 1)` bits; an `EPUT` in `Encoding` adds 1 to 255 bits; after a flush `e_out` is empty. -/
def Obligations.EncoderBufferBounds : Prop :=
  ∀ s, BlockInv s →
    s.e.pend.length ≤ s.threshold.val ∧ (s.e.flushed = true → s.e.out = []) ∧
    ∀ y t, exec (.eput y) s = .next t → OpenE s →
      (s.e.state = .collecting → t.e.out.length ≤ 16384 + 255 * (s.threshold.val + 1)) ∧
      (s.e.state = .encoding → s.e.out.length + 1 ≤ t.e.out.length ∧ t.e.out.length ≤ s.e.out.length + 255)

/-! ### Refusals -/

/-- R172: while `e_fatal` is 1 every E command is refused with cause 2 and changes nothing; units B and D never answer so. -/
def Obligations.HaltedEncoderRefusesEverything : Prop :=
  (∀ i s, i.unit = .e → s.e.fatal = true → ∃ t, exec i s = .next t ∧ t.e = s.e ∧ AnswersE s t ⟨.refused, 2, []⟩) ∧
  ∀ i s t r, i.unit ≠ .e → exec i s = .next t → t.respB = s.respB ++ [r] ∨ t.respD = s.respD ++ [r] → r ≠ ⟨.refused, 2, []⟩

/-- R173: after its flush a unit refuses every command with cause 3 and changes nothing (a halted unit E reports cause 2 first,
R178). -/
def Obligations.FlushedUnitRefusesEverything : Prop :=
  (∀ i s, i.unit = .e → s.e.fatal = false → s.e.flushed = true →
    ∃ t, exec i s = .next t ∧ t.e = s.e ∧ AnswersE s t ⟨.refused, 3, []⟩) ∧
  ∀ i s, i.unit = .d → s.d.flushed = true → ∃ t, exec i s = .next t ∧ t.d = s.d ∧ AnswersD s t ⟨.refused, 3, []⟩

/-- R178: exactly one cause is reported, in the order `ILLEGAL_COMMAND`, `UNIT_HALTED`, `PROTOCOL_AFTER_FLUSH`, `INDEX_MISS`. -/
def Obligations.CausesFollowTheirPriority : Prop :=
  (∀ cw why s, decode cw = .error why → unitField cw = 2 → accept cw s = .next (s.respondE ⟨.refused, 1, []⟩)) ∧
  (∀ cw why s, decode cw = .error why → unitField cw = 3 → accept cw s = .next (s.respondD ⟨.refused, 1, []⟩)) ∧
  (∀ i s, i.unit = .e → s.e.fatal = true → exec i s = .next (s.respondE ⟨.refused, 2, []⟩)) ∧
  (∀ y s, s.e.fatal = false → s.e.flushed = true → s.e.code.codeword y = none →
    exec (.eput y) s = .next (s.respondE ⟨.refused, 3, []⟩))

/-! ### Unit D -/

/-- R152. -/
def Obligations.DputBuffersAByte : Prop :=
  (∀ cw y, decode cw = .ok (.dput y) ↔ cw &&& 0xFF00 = 0x3000 ∧ y = cw.extractLsb' 0 8) ∧
  (∀ y, PrologueRefusesD (.dput y)) ∧
  ∀ (y : Byte) s, s.d.flushed = false → ∃ t, exec (.dput y) s = .next t ∧
    t.d = { s.d with inp := s.d.inp ++ [y[7], y[6], y[5], y[4], y[3], y[2], y[1], y[0]] } ∧ AnswersD s t ⟨.ok, 0, []⟩

/-- R155, R153, R154: `DEND` waits for 16384 bits and changes nothing until they are there; the `DEND` that has them rebuilds the
table and the tree from the first 16384 and walks the rest; in `Decoding` it walks all of `d_in`. -/
def Obligations.DendParsesTheHeaderThenWalks : Prop :=
  (∀ cw, decode cw = .ok .dend ↔ cw = 0x3100) ∧
  (∀ cw s, unitField cw = 3 → functField cw = 1 → cw ≠ 0x3100 → accept cw s = .next (s.respondD ⟨.refused, 1, []⟩)) ∧
  PrologueRefusesD .dend ∧
  ∀ s, s.d.flushed = false →
    (s.d.state = .awaitingHeader → s.d.inp.length < 16384 → ∃ t, exec .dend s = .next t ∧ t.d = s.d ∧
      AnswersD s t ⟨.ok, 0, []⟩) ∧
    (s.d.state = .awaitingHeader → 16384 ≤ s.d.inp.length → ∃ t cnt out rest, exec .dend s = .next t ∧
      t.d = { s.d with state := .decoding, inp := rest, cnt := some cnt, node := some (build cnt).1 } ∧
      (ftSerialize cnt).flatMap bits8 = s.d.inp.take 16384 ∧ Walks (build cnt).1 (s.d.inp.drop 16384) out rest ∧
      AnswersD s t ⟨.ok, 0, out⟩) ∧
    (∀ store, s.d.state = .decoding → s.d.node = some store → ∃ t out rest, exec .dend s = .next t ∧
      t.d = { s.d with inp := rest } ∧ Walks store s.d.inp out rest ∧ AnswersD s t ⟨.ok, 0, out⟩)

/-- R158: every bit sequence splits in exactly one way into codewords and a proper prefix of a codeword, and a walk of it gives the
bytes of those codewords and leaves that prefix. -/
def Obligations.WalkSplitsTheBits : Prop :=
  ∀ (cnt : FreqTable) (code : Byte → BitSeq), IsCodeOf (build cnt).2 code → ∀ q : BitSeq,
    (∃! p : ByteSeq × BitSeq, q = p.1.flatMap code ++ p.2 ∧ ProperPrefix (build cnt).2 p.2) ∧
    ∀ ys rest, Walks (build cnt).1 q ys rest ↔ q = ys.flatMap code ++ rest ∧ ProperPrefix (build cnt).2 rest

/-- R156: `DFLUSH` does exactly what `DEND` does, returns what `DEND` would return, and then closes the session; it completes
wherever no absent tree would be read. -/
def Obligations.DflushIsDendThenClosed : Prop :=
  (∀ cw, decode cw = .ok .dflush ↔ cw = 0x3200) ∧
  (∀ cw s, unitField cw = 3 → functField cw = 2 → cw ≠ 0x3200 → accept cw s = .next (s.respondD ⟨.refused, 1, []⟩)) ∧
  PrologueRefusesD .dflush ∧
  ∀ s, s.d.flushed = false → (s.d.state = .decoding → s.d.node ≠ none) →
    ∃ t, exec .dend s = .next t ∧ exec .dflush s = .next { t with d := { t.d with flushed := true } }

/-- The model's choice (log entry 4; R26 and D24 say no rule reads the store while it is absent): in `Decoding` with no node store,
`DEND` and `DFLUSH` complete when `d_in` is empty, and stop with a fault when a bit would be walked. -/
def Obligations.WalkWithoutATreeStops : Prop :=
  ∀ s, s.d.flushed = false → s.d.state = .decoding → s.d.node = none →
    (s.d.inp ≠ [] → exec .dend s = .fault .absentNodeStore ∧ exec .dflush s = .fault .absentNodeStore) ∧
    (s.d.inp = [] → ∃ t, exec .dend s = .next t ∧ t.d = s.d ∧ AnswersD s t ⟨.ok, 0, []⟩)

/-- R158, R33 line 5, R161: in a state that meets the invariants, what `DEND` leaves in `d_in` in `Decoding` is a proper prefix of
a codeword, of at most 254 bits; in `AwaitingHeader` fewer than 16384 bits; and it returns at most one byte for each bit. -/
def Obligations.ResidualIsAProperPrefix : Prop :=
  ∀ s t, BlockInv s → s.d.flushed = false → exec .dend s = .next t →
    (t.d.state = .decoding → ∃ cnt, t.d.cnt = some cnt ∧ ProperPrefix (build cnt).2 t.d.inp ∧ t.d.inp.length ≤ 254) ∧
    (t.d.state = .awaitingHeader → t.d.inp.length < 16384) ∧
    ∀ r, t.respD = s.respD ++ [r] → r.data.length ≤ s.d.inp.length

/-! ### The whole block -/

/-- R56: commands to different units commute, and each gives the same response in either order. -/
def Obligations.UnitsCommute : Prop :=
  ∀ i j s t u, i.unit ≠ j.unit → exec i s = .next t → exec j t = .next u →
    ∃ t', exec j s = .next t' ∧ exec i t' = .next u

/-- R10, R56: what a command does to its unit, and its response, depend on nothing but that unit's state (and `THRESHOLD` for
unit E). -/
def Obligations.CommandsSeeTheirOwnUnitOnly : Prop :=
  ∀ i s₁ s₂ t₁, exec i s₁ = .next t₁ →
    (i.unit = .b → s₁.b = s₂.b → ∃ t₂ r, exec i s₂ = .next t₂ ∧ t₂.b = t₁.b ∧ AnswersB s₁ t₁ r ∧ AnswersB s₂ t₂ r) ∧
    (i.unit = .e → s₁.e = s₂.e → s₁.threshold = s₂.threshold →
      ∃ t₂ r, exec i s₂ = .next t₂ ∧ t₂.e = t₁.e ∧ AnswersE s₁ t₁ r ∧ AnswersE s₂ t₂ r) ∧
    (i.unit = .d → s₁.d = s₂.d → ∃ t₂ r, exec i s₂ = .next t₂ ∧ t₂.d = t₁.d ∧ AnswersD s₁ t₁ r ∧ AnswersD s₂ t₂ r)

/-- R13, R14, R15, R22, R23, R180: no step but the unit's own reset clears `e_flushed`, `e_fatal` or `d_flushed`, or leads back
from `Encoding` or from `Decoding`. That `THRESHOLD` keeps its level from one reset of E to the next is the host's to see to (R30);
that the model's field changes with that reset only is the model's choice (log entry 1). -/
def Obligations.OnlyResetGoesBack : Prop :=
  ∀ s t, step s = .next t →
    ((∀ l, s.inbox.head? ≠ some (.resetE l)) →
      (s.e.flushed = true → t.e.flushed = true) ∧ (s.e.fatal = true → t.e.fatal = true) ∧
      (s.e.state = .encoding → t.e.state = .encoding) ∧ t.threshold = s.threshold) ∧
    (s.inbox.head? ≠ some .resetD →
      (s.d.flushed = true → t.d.flushed = true) ∧ (s.d.state = .decoding → t.d.state = .decoding))

/-- R16, R19, R20, R25, R26, R58: once the table is frozen (or the header read) no step but the unit's own reset writes the table,
the tree or the code index. -/
def Obligations.FrozenTreeNeverChanges : Prop :=
  ∀ s t, step s = .next t →
    (s.e.state = .encoding → (∀ l, s.inbox.head? ≠ some (.resetE l)) →
      t.e.cnt = s.e.cnt ∧ t.e.node = s.e.node ∧ t.e.code = s.e.code) ∧
    (s.d.state = .decoding → s.inbox.head? ≠ some .resetD → t.d.cnt = s.d.cnt ∧ t.d.node = s.d.node)

/-- The invariants of R33 hold after reset. -/
def Obligations.InvariantHoldsAtReset : Prop := BlockInv State.reset

/-- R33: every step from a state that meets the invariants leads to one that meets them, resets of single units included. -/
def Obligations.EveryStepKeepsTheInvariant : Prop := ∀ s t, BlockInv s → step s = .next t → BlockInv t

/-- R202: every accepted command responds: a step from a state that meets the invariants is a next state, whatever the input. -/
def Obligations.NoStepStops : Prop := ∀ s, BlockInv s → ∃ t, step s = .next t

/-- R33, R192: whatever inputs the host issues after reset, all of them are carried out and the invariants hold at the end. -/
def Obligations.EveryRunFromResetIsSafe : Prop :=
  ∀ ins, ∃ t, runInputs ins State.reset = .next t ∧ BlockInv t ∧ t.inbox = []

/-! ### Sessions -/

/-- R138, the stream law: a session of unit E (reset, any sequence of `EPUT` and `EEND`, `EFLUSH`) from any state returns in all
its responses together the header of the table that counts the first `min(n, THRESHOLD + 1)` bytes, then the packed codewords
of all `n` bytes under that table's code. -/
def Obligations.EncoderStreamLaw : Prop :=
  ∀ (s : State) (l : Config.Threshold) (events : List (Option Byte)),
    let ys := events.filterMap id
    let cnt := (ys.take (l.val + 1)).foldl ftPush FreqTable.empty
    ∃ t rs code, runInputs (.resetE l :: (events.map encoderEvent ++ [issue .eflush])) s = .next t ∧
      t.respE = s.respE ++ rs ∧ IsCodeOf (build cnt).2 code ∧
      dataOf rs = ftSerialize cnt ++ bbToBytes (ys.flatMap code)

/-- R139, chunk-split stability: the same bytes cut into chunks in two ways give the same concatenated data. -/
def Obligations.EncodingIsChunkSplitStable : Prop :=
  ∀ (s : State) (l : Config.Threshold) (chunks₁ chunks₂ : List ByteSeq), chunks₁.flatten = chunks₂.flatten →
    ∃ t₁ t₂ rs₁ rs₂, runInputs (eSession l chunks₁) s = .next t₁ ∧ runInputs (eSession l chunks₂) s = .next t₂ ∧
      t₁.respE = s.respE ++ rs₁ ∧ t₂.respE = s.respE ++ rs₂ ∧ dataOf rs₁ = dataOf rs₂ ∧ t₁.e = t₂.e

/-- R158, decoder resumption: the same bytes cut into chunks in two ways give the same concatenated data and the same final
state of unit D. -/
def Obligations.DecodingIsChunkSplitStable : Prop :=
  ∀ (s : State) (chunks₁ chunks₂ : List ByteSeq), chunks₁.flatten = chunks₂.flatten →
    ∃ t₁ t₂ rs₁ rs₂, runInputs (dSession chunks₁) s = .next t₁ ∧ runInputs (dSession chunks₂) s = .next t₂ ∧
      t₁.respD = s.respD ++ rs₁ ∧ t₂.respD = s.respD ++ rs₂ ∧ dataOf rs₁ = dataOf rs₂ ∧ t₁.d = t₂.d

/-- R159, the round trip: for every byte sequence, every `THRESHOLD`, every cutting of it into chunks for the encoder and every
cutting of the stream into chunks for the decoder, the decoder returns the byte sequence, and what is left in `d_in` is the
padding, at most 7 zero bits. -/
def Obligations.DecodingTheStreamGivesTheBytesBack : Prop :=
  ∀ (s : State) (l : Config.Threshold) (chunks : List ByteSeq),
    ∃ t rs, runInputs (eSession l chunks) s = .next t ∧ t.respE = s.respE ++ rs ∧
      ∀ cuts : List ByteSeq, cuts.flatten = dataOf rs →
        ∃ u rs' p, runInputs (dSession cuts) t = .next u ∧ u.respD = t.respD ++ rs' ∧ dataOf rs' = chunks.flatten ∧
          u.d.inp = zeros p ∧ p ≤ 7
end

