-- ==== Sys2Proof/Laws/Bits.lean ====
section
/-! SUPPORT. Bytes and bits, counters and bytes: the conversions of spec/00_scope.md R8 are inverse to each other, alone and over
sequences. -/

namespace Sys2Proof.Laws

open Sys2Proof Sys2Proof.Machine

@[simp] theorem bits8_length (y : Byte) : (bits8 y).length = 8 := rfl

@[simp] theorem be64_length (c : Count) : (be64 c).length = 8 := rfl

theorem byte8_bits8 (y : Byte) : byte8 (bits8 y) = y := by revert y; decide +kernel

theorem bits8_byte8 {q : BitSeq} (h : q.length = 8) : bits8 (byte8 q) = q := by
  have all : ∀ b7 b6 b5 b4 b3 b2 b1 b0 : Bool,
      bits8 (byte8 [b7, b6, b5, b4, b3, b2, b1, b0]) = [b7, b6, b5, b4, b3, b2, b1, b0] := by decide +kernel
  match q, h with
  | [_, _, _, _, _, _, _, _], _ => exact all ..

theorem unbe64_be64 (c : Count) : unbe64 (be64 c) = c := by
  apply BitVec.eq_of_toNat_eq
  simp only [unbe64, be64, List.foldl_cons, List.foldl_nil, BitVec.extractLsb'_toNat, BitVec.toNat_ofNat,
    Nat.shiftRight_eq_div_pow]
  have := c.isLt
  omega

theorem be64_unbe64 {ys : ByteSeq} (h : ys.length = 8) : be64 (unbe64 ys) = ys := by
  match ys, h with
  | [y0, y1, y2, y3, y4, y5, y6, y7], _ =>
    have h0 := y0.isLt; have h1 := y1.isLt; have h2 := y2.isLt; have h3 := y3.isLt
    have h4 := y4.isLt; have h5 := y5.isLt; have h6 := y6.isLt; have h7 := y7.isLt
    simp only [be64, unbe64, List.foldl_cons, List.foldl_nil, List.cons.injEq, and_true]
    refine ⟨?_, ?_, ?_, ?_, ?_, ?_, ?_, ?_⟩ <;>
      (apply BitVec.eq_of_toNat_eq
       simp only [BitVec.extractLsb'_toNat, BitVec.toNat_ofNat, Nat.shiftRight_eq_div_pow]
       omega)

theorem flatMap_bits8_length (ys : ByteSeq) : (ys.flatMap bits8).length = 8 * ys.length := by
  induction ys with
  | nil => rfl
  | cons y ys ih => simp only [List.flatMap_cons, List.length_append, ih, bits8_length, List.length_cons]; omega

theorem flatMap_be64_length (cs : List Count) : (cs.flatMap be64).length = 8 * cs.length := by
  induction cs with
  | nil => rfl
  | cons c cs ih => simp only [List.flatMap_cons, List.length_append, ih, be64_length, List.length_cons]; omega

@[simp] theorem packBytes_length (m : Nat) (q : BitSeq) : (packBytes m q).length = m := by
  induction m generalizing q with
  | zero => rfl
  | succ m ih => simp [packBytes, ih]

/-- Packing what bytes expand to gives the bytes. -/
theorem packBytes_flatMap (ys : ByteSeq) (r : BitSeq) : packBytes ys.length (ys.flatMap bits8 ++ r) = ys := by
  induction ys with
  | nil => rfl
  | cons y ys ih =>
    simp only [List.length_cons, packBytes, List.flatMap_cons, List.append_assoc]
    rw [List.take_left' (bits8_length y), List.drop_left' (bits8_length y), byte8_bits8, ih]

/-- Expanding packed bits gives the bits. -/
theorem flatMap_packBytes {m : Nat} {q : BitSeq} (h : 8 * m ≤ q.length) :
    (packBytes m q).flatMap bits8 = q.take (8 * m) := by
  induction m generalizing q with
  | zero => rfl
  | succ m ih =>
    simp only [packBytes, List.flatMap_cons]
    rw [ih (by simp; omega), bits8_byte8 (by simp; omega), show 8 * (m + 1) = 8 + 8 * m by omega, List.take_add]

theorem flatMap_bits8_inj {xs ys : ByteSeq} (h : xs.flatMap bits8 = ys.flatMap bits8) : xs = ys := by
  have hl : xs.length = ys.length := by
    have := congrArg List.length h
    rw [flatMap_bits8_length, flatMap_bits8_length] at this; omega
  have h1 := packBytes_flatMap xs []
  rw [h, hl, packBytes_flatMap ys []] at h1
  exact h1.symm

/-- The bit at place `8j + k` of expanded bytes. -/
theorem flatMap_bits8_getElem? {ys : ByteSeq} {j k : Nat} {y : Byte} (hy : ys[j]? = some y) (hk : k < 8) :
    (ys.flatMap bits8)[8 * j + k]? = some (y.getLsbD (7 - k)) := by
  induction ys generalizing j with
  | nil => simp at hy
  | cons x ys ih =>
    rw [List.flatMap_cons]
    cases j with
    | zero =>
      simp only [List.getElem?_cons_zero, Option.some.injEq] at hy
      subst hy
      rw [List.getElem?_append_left (by simp; omega)]
      rcases k with _ | _ | _ | _ | _ | _ | _ | _ | k <;> first | rfl | omega
    | succ j =>
      rw [List.getElem?_append_right (by simp; omega), bits8_length, show 8 * (j + 1) + k - 8 = 8 * j + k by omega]
      exact ih (by simpa using hy)

/-- The byte at place `8v + k` of serialized counters. -/
theorem flatMap_be64_getElem? {cs : List Count} {v k : Nat} {c : Count} (hc : cs[v]? = some c) (hk : k < 8) :
    (cs.flatMap be64)[8 * v + k]? = some (c.extractLsb' (56 - 8 * k) 8) := by
  induction cs generalizing v with
  | nil => simp at hc
  | cons x cs ih =>
    rw [List.flatMap_cons]
    cases v with
    | zero =>
      simp only [List.getElem?_cons_zero, Option.some.injEq] at hc
      subst hc
      rw [List.getElem?_append_left (by simp; omega)]
      rcases k with _ | _ | _ | _ | _ | _ | _ | _ | k <;> first | rfl | omega
    | succ v =>
      rw [List.getElem?_append_right (by simp; omega), be64_length, show 8 * (v + 1) + k - 8 = 8 * v + k by omega]
      exact ih (by simpa using hc)

/-- Reading counters back from what they serialize to. -/
theorem readCounts_flatMap (cs : List Count) (r : ByteSeq) : readCounts cs.length (cs.flatMap be64 ++ r) = cs := by
  induction cs with
  | nil => rfl
  | cons c cs ih =>
    simp only [List.length_cons, readCounts, List.flatMap_cons, List.append_assoc]
    rw [List.take_left' (be64_length c), List.drop_left' (be64_length c), unbe64_be64, ih]

/-- Serializing the counters read from bytes. -/
theorem flatMap_readCounts {n : Nat} {ys : ByteSeq} (h : ys.length = 8 * n) : (readCounts n ys).flatMap be64 = ys := by
  induction n generalizing ys with
  | zero => simp at h; subst h; rfl
  | succ n ih =>
    simp only [readCounts, List.flatMap_cons]
    rw [be64_unbe64 (by simp; omega), ih (by simp; omega), List.take_append_drop]

/-- `m` dequeues from the front. -/
theorem popFront_iterate (q : BitSeq) (m : Nat) : (fun q => (bbPopFront q).2)^[m] q = q.drop m := by
  induction m generalizing q with
  | zero => rfl
  | succ m ih => rw [Function.iterate_succ, Function.comp, ih]; cases q <;> simp [bbPopFront]

end Sys2Proof.Laws
end

