-- ==== Sys2Proof/Laws/Decode.lean ====
section
/-! SUPPORT. A command word is its three fields, and what each field of it reads. -/

namespace Sys2Proof.Laws

open Sys2Proof

theorem wordOf_getLsbD (unit funct : BitVec 4) (arg : Byte) (i : Nat) :
    (wordOf unit funct arg).getLsbD i =
      if i < 8 then arg.getLsbD i else if i < 12 then funct.getLsbD (i - 8) else unit.getLsbD (i - 12) := by
  unfold wordOf
  rw [BitVec.getLsbD_append, BitVec.getLsbD_append]
  by_cases h : i < 8
  · simp [h]
  · by_cases h' : i < 12
    · simp [h, h', show i - 8 < 4 by omega]
    · simp [h, h', show ¬ i - 8 < 4 by omega, show i - 8 - 4 = i - 12 by omega]

theorem exists_wordOf (cw : CmdWord) : ∃ unit funct arg, cw = wordOf unit funct arg := by
  refine ⟨cw.extractLsb' 12 4, cw.extractLsb' 8 4, cw.extractLsb' 0 8, ?_⟩
  apply BitVec.eq_of_getLsbD_eq
  intro i hi
  rw [wordOf_getLsbD]
  simp only [BitVec.getLsbD_extractLsb']
  by_cases h : i < 8
  · simp [h]
  · by_cases h' : i < 12
    · simp [h, h', show i - 8 < 4 by omega, show 8 + (i - 8) = i by omega]
    · simp [h, h', show i - 12 < 4 by omega, show 12 + (i - 12) = i by omega]

section
variable (unit funct : BitVec 4) (arg : Byte)

@[simp] theorem argField_wordOf : argField (wordOf unit funct arg) = arg := by
  apply BitVec.eq_of_getLsbD_eq
  intro i hi
  simp only [argField, BitVec.getLsbD_extractLsb', wordOf_getLsbD, Nat.zero_add, hi, decide_true, Bool.true_and, if_true]

@[simp] theorem unitField_wordOf : unitField (wordOf unit funct arg) = unit.toNat := by
  refine congrArg BitVec.toNat (BitVec.eq_of_getLsbD_eq fun i hi => ?_)
  simp [wordOf_getLsbD, hi, show ¬ 12 + i < 8 by omega, show ¬ 12 + i < 12 by omega]

@[simp] theorem functField_wordOf : functField (wordOf unit funct arg) = funct.toNat := by
  refine congrArg BitVec.toNat (BitVec.eq_of_getLsbD_eq fun i hi => ?_)
  simp [wordOf_getLsbD, hi, show ¬ 8 + i < 8 by omega, show 8 + i < 12 by omega]

@[simp] theorem fnField_wordOf : fnField (wordOf unit funct arg) = (funct.extractLsb' 0 3).toNat := by
  refine congrArg BitVec.toNat (BitVec.eq_of_getLsbD_eq fun i hi => ?_)
  simp [wordOf_getLsbD, hi, show ¬ 8 + i < 8 by omega, show 8 + i < 12 by omega]

@[simp] theorem selField_wordOf :
    selField (wordOf unit funct arg) = if funct.getLsbD 3 then .bb1 else .bb0 := by
  unfold selField; rw [wordOf_getLsbD]; rfl

end

end Sys2Proof.Laws
end

