-- ==== Sys2Proof/Laws/State.lean ====
section
/-! SUPPORT. One lemma per field per update of the state: what giving a response, a reset and each write of a unit's state leaves in
every field. All hold by definition. -/

namespace Sys2Proof.Laws

open Sys2Proof Sys2Proof.Machine

section
variable (s : State)

@[simp] theorem respondB_b (r : Response) : (s.respondB r).b = s.b := rfl
@[simp] theorem respondB_e (r : Response) : (s.respondB r).e = s.e := rfl
@[simp] theorem respondB_d (r : Response) : (s.respondB r).d = s.d := rfl
@[simp] theorem respondB_threshold (r : Response) : (s.respondB r).threshold = s.threshold := rfl
@[simp] theorem respondB_inbox (r : Response) : (s.respondB r).inbox = s.inbox := rfl
@[simp] theorem respondB_respB (r : Response) : (s.respondB r).respB = s.respB ++ [r] := rfl
@[simp] theorem respondB_respE (r : Response) : (s.respondB r).respE = s.respE := rfl
@[simp] theorem respondB_respD (r : Response) : (s.respondB r).respD = s.respD := rfl
@[simp] theorem respondB_respX (r : Response) : (s.respondB r).respX = s.respX := rfl

@[simp] theorem respondE_b (r : Response) : (s.respondE r).b = s.b := rfl
@[simp] theorem respondE_e (r : Response) : (s.respondE r).e = s.e := rfl
@[simp] theorem respondE_d (r : Response) : (s.respondE r).d = s.d := rfl
@[simp] theorem respondE_threshold (r : Response) : (s.respondE r).threshold = s.threshold := rfl
@[simp] theorem respondE_inbox (r : Response) : (s.respondE r).inbox = s.inbox := rfl
@[simp] theorem respondE_respB (r : Response) : (s.respondE r).respB = s.respB := rfl
@[simp] theorem respondE_respE (r : Response) : (s.respondE r).respE = s.respE ++ [r] := rfl
@[simp] theorem respondE_respD (r : Response) : (s.respondE r).respD = s.respD := rfl
@[simp] theorem respondE_respX (r : Response) : (s.respondE r).respX = s.respX := rfl

@[simp] theorem respondD_b (r : Response) : (s.respondD r).b = s.b := rfl
@[simp] theorem respondD_e (r : Response) : (s.respondD r).e = s.e := rfl
@[simp] theorem respondD_d (r : Response) : (s.respondD r).d = s.d := rfl
@[simp] theorem respondD_threshold (r : Response) : (s.respondD r).threshold = s.threshold := rfl
@[simp] theorem respondD_inbox (r : Response) : (s.respondD r).inbox = s.inbox := rfl
@[simp] theorem respondD_respB (r : Response) : (s.respondD r).respB = s.respB := rfl
@[simp] theorem respondD_respE (r : Response) : (s.respondD r).respE = s.respE := rfl
@[simp] theorem respondD_respD (r : Response) : (s.respondD r).respD = s.respD ++ [r] := rfl
@[simp] theorem respondD_respX (r : Response) : (s.respondD r).respX = s.respX := rfl

@[simp] theorem respondX_b (r : Response) : (s.respondX r).b = s.b := rfl
@[simp] theorem respondX_e (r : Response) : (s.respondX r).e = s.e := rfl
@[simp] theorem respondX_d (r : Response) : (s.respondX r).d = s.d := rfl
@[simp] theorem respondX_threshold (r : Response) : (s.respondX r).threshold = s.threshold := rfl
@[simp] theorem respondX_inbox (r : Response) : (s.respondX r).inbox = s.inbox := rfl
@[simp] theorem respondX_respB (r : Response) : (s.respondX r).respB = s.respB := rfl
@[simp] theorem respondX_respE (r : Response) : (s.respondX r).respE = s.respE := rfl
@[simp] theorem respondX_respD (r : Response) : (s.respondX r).respD = s.respD := rfl
@[simp] theorem respondX_respX (r : Response) : (s.respondX r).respX = s.respX ++ [r] := rfl

@[simp] theorem resetB_b : s.resetB.b = UnitB.reset := rfl
@[simp] theorem resetB_e : s.resetB.e = s.e := rfl
@[simp] theorem resetB_d : s.resetB.d = s.d := rfl
@[simp] theorem resetB_threshold : s.resetB.threshold = s.threshold := rfl
@[simp] theorem resetB_inbox : s.resetB.inbox = s.inbox := rfl
@[simp] theorem resetB_respB : s.resetB.respB = s.respB := rfl
@[simp] theorem resetB_respE : s.resetB.respE = s.respE := rfl
@[simp] theorem resetB_respD : s.resetB.respD = s.respD := rfl
@[simp] theorem resetB_respX : s.resetB.respX = s.respX := rfl

@[simp] theorem resetE_b (t : Config.Threshold) : (s.resetE t).b = s.b := rfl
@[simp] theorem resetE_e (t : Config.Threshold) : (s.resetE t).e = UnitE.reset := rfl
@[simp] theorem resetE_d (t : Config.Threshold) : (s.resetE t).d = s.d := rfl
@[simp] theorem resetE_threshold (t : Config.Threshold) : (s.resetE t).threshold = t := rfl
@[simp] theorem resetE_inbox (t : Config.Threshold) : (s.resetE t).inbox = s.inbox := rfl
@[simp] theorem resetE_respB (t : Config.Threshold) : (s.resetE t).respB = s.respB := rfl
@[simp] theorem resetE_respE (t : Config.Threshold) : (s.resetE t).respE = s.respE := rfl
@[simp] theorem resetE_respD (t : Config.Threshold) : (s.resetE t).respD = s.respD := rfl
@[simp] theorem resetE_respX (t : Config.Threshold) : (s.resetE t).respX = s.respX := rfl

@[simp] theorem resetD_b : s.resetD.b = s.b := rfl
@[simp] theorem resetD_e : s.resetD.e = s.e := rfl
@[simp] theorem resetD_d : s.resetD.d = UnitD.reset := rfl
@[simp] theorem resetD_threshold : s.resetD.threshold = s.threshold := rfl
@[simp] theorem resetD_inbox : s.resetD.inbox = s.inbox := rfl
@[simp] theorem resetD_respB : s.resetD.respB = s.respB := rfl
@[simp] theorem resetD_respE : s.resetD.respE = s.respE := rfl
@[simp] theorem resetD_respD : s.resetD.respD = s.respD := rfl
@[simp] theorem resetD_respX : s.resetD.respX = s.respX := rfl

end

section
variable (u : UnitE)

@[simp] theorem setFlushed_state : u.setFlushed.state = u.state := rfl
@[simp] theorem setFlushed_flushed : u.setFlushed.flushed = true := rfl
@[simp] theorem setFlushed_fatal : u.setFlushed.fatal = u.fatal := rfl
@[simp] theorem setFlushed_cnt : u.setFlushed.cnt = u.cnt := rfl
@[simp] theorem setFlushed_pend : u.setFlushed.pend = u.pend := rfl
@[simp] theorem setFlushed_out : u.setFlushed.out = u.out := rfl
@[simp] theorem setFlushed_node : u.setFlushed.node = u.node := rfl
@[simp] theorem setFlushed_code : u.setFlushed.code = u.code := rfl

@[simp] theorem setFatal_state : u.setFatal.state = u.state := rfl
@[simp] theorem setFatal_flushed : u.setFatal.flushed = u.flushed := rfl
@[simp] theorem setFatal_fatal : u.setFatal.fatal = true := rfl
@[simp] theorem setFatal_cnt : u.setFatal.cnt = u.cnt := rfl
@[simp] theorem setFatal_pend : u.setFatal.pend = u.pend := rfl
@[simp] theorem setFatal_out : u.setFatal.out = u.out := rfl
@[simp] theorem setFatal_node : u.setFatal.node = u.node := rfl
@[simp] theorem setFatal_code : u.setFatal.code = u.code := rfl

@[simp] theorem collect_state (y : Byte) : (u.collect y).state = u.state := rfl
@[simp] theorem collect_flushed (y : Byte) : (u.collect y).flushed = u.flushed := rfl
@[simp] theorem collect_fatal (y : Byte) : (u.collect y).fatal = u.fatal := rfl
@[simp] theorem collect_cnt (y : Byte) : (u.collect y).cnt = ftPush u.cnt y := rfl
@[simp] theorem collect_pend (y : Byte) : (u.collect y).pend = u.pend ++ [y] := rfl
@[simp] theorem collect_out (y : Byte) : (u.collect y).out = u.out := rfl
@[simp] theorem collect_node (y : Byte) : (u.collect y).node = u.node := rfl
@[simp] theorem collect_code (y : Byte) : (u.collect y).code = u.code := rfl

@[simp] theorem startEncoding_state : u.startEncoding.state = .encoding := rfl
@[simp] theorem startEncoding_flushed : u.startEncoding.flushed = u.flushed := rfl
@[simp] theorem startEncoding_fatal : u.startEncoding.fatal = u.fatal := rfl
@[simp] theorem startEncoding_cnt : u.startEncoding.cnt = u.cnt := rfl
@[simp] theorem startEncoding_pend : u.startEncoding.pend = u.pend := rfl
@[simp] theorem startEncoding_out : u.startEncoding.out = bbAppendBytes u.out (ftSerialize u.cnt) := rfl
@[simp] theorem startEncoding_node : u.startEncoding.node = some (build u.cnt).1 := rfl
@[simp] theorem startEncoding_code : u.startEncoding.code = (build u.cnt).2 := rfl

end

section
variable (u : UnitD)

@[simp] theorem decoder_setFlushed_state : u.setFlushed.state = u.state := rfl
@[simp] theorem decoder_setFlushed_flushed : u.setFlushed.flushed = true := rfl
@[simp] theorem decoder_setFlushed_inp : u.setFlushed.inp = u.inp := rfl
@[simp] theorem decoder_setFlushed_cnt : u.setFlushed.cnt = u.cnt := rfl
@[simp] theorem decoder_setFlushed_node : u.setFlushed.node = u.node := rfl

@[simp] theorem decoder_put_state (y : Byte) : (UnitD.put y u).state = u.state := rfl
@[simp] theorem decoder_put_flushed (y : Byte) : (UnitD.put y u).flushed = u.flushed := rfl
@[simp] theorem decoder_put_inp (y : Byte) : (UnitD.put y u).inp = bbAppendBytes u.inp [y] := rfl
@[simp] theorem decoder_put_cnt (y : Byte) : (UnitD.put y u).cnt = u.cnt := rfl
@[simp] theorem decoder_put_node (y : Byte) : (UnitD.put y u).node = u.node := rfl

end

section
variable (u : UnitB) (sel : BufSel) (q : BitSeq)

@[simp] theorem set_get_self : (u.set sel q).get sel = q := by cases sel <;> rfl

@[simp] theorem set_get_other : (u.set sel q).get sel.other = u.get sel.other := by cases sel <;> rfl

@[simp] theorem set_other_get : (u.set sel.other q).get sel = u.get sel := by cases sel <;> rfl

@[simp] theorem set_get_same : u.set sel (u.get sel) = u := by cases sel <;> rfl

@[simp] theorem set_set (q' : BitSeq) : (u.set sel q).set sel q' = u.set sel q' := by cases sel <;> rfl

@[simp] theorem other_other : sel.other.other = sel := by cases sel <;> rfl

/-- Unit B is its two buffers. -/
theorem unitB_ext {u v : UnitB} (sel : BufSel) (h : u.get sel = v.get sel) (h' : u.get sel.other = v.get sel.other) : u = v := by
  cases u; cases v; cases sel <;> simp_all [UnitB.get, BufSel.other]

end

end Sys2Proof.Laws
end

