-- ==== Sys2Proof/Laws/Ops.lean ====
section
/-! SUPPORT. What each shared operation can do, said once: the common prologues with their bodies, raising a cause, taking an
input, and one step. -/

namespace Sys2Proof.Laws

open Sys2Proof Sys2Proof.Machine

/-- A refusal adds a response and changes nothing else (R179). -/
theorem raise_refusal {who : Option UnitId} {c : Cause} (h : c ≠ .indexMiss) (s : State) :
    s.raise who c = s.respond who (Response.ofCause c) := by
  cases c <;> first | rfl | exact absurd rfl h

theorem raise_indexMiss (who : Option UnitId) (s : State) :
    s.raise who .indexMiss = { s with e := s.e.setFatal }.respond who (Response.ofCause .indexMiss) := rfl

/-- Which cause refuses a legal command of unit E (R131, R178). -/
theorem encoder_refusal_eq_some {u : UnitE} {c : Cause} :
    u.refusal = some c ↔ (u.fatal = true ∧ c = .unitHalted) ∨
      (u.fatal = false ∧ u.flushed = true ∧ c = .protocolAfterFlush) := by
  unfold UnitE.refusal
  cases u.fatal <;> cases u.flushed <;> simp [eq_comm]

theorem encoder_refusal_eq_none {u : UnitE} : u.refusal = none ↔ u.fatal = false ∧ u.flushed = false := by
  unfold UnitE.refusal
  cases u.fatal <;> cases u.flushed <;> simp

/-- Which cause refuses a legal command of unit D (R151). -/
theorem decoder_refusal_eq_some {u : UnitD} {c : Cause} :
    u.refusal = some c ↔ u.flushed = true ∧ c = .protocolAfterFlush := by
  unfold UnitD.refusal
  cases u.flushed <;> simp [eq_comm]

theorem decoder_refusal_eq_none {u : UnitD} : u.refusal = none ↔ u.flushed = false := by
  unfold UnitD.refusal
  cases u.flushed <;> simp

theorem runB_eq (body : UnitB → UnitB × Response) (s : State) :
    runB body s = .next ({ s with b := (body s.b).1 }.respondB (body s.b).2) := rfl

/-- All that a command of unit E can do (R131, R174): it always gives a next state, and in it the command is refused, or is rolled
back with `INDEX_MISS`, or has its effect. -/
theorem runE_cases (body : UnitE → Option (UnitE × ByteSeq)) (s : State) :
    (∃ c, s.e.refusal = some c ∧ runE body s = .next (s.respondE (Response.ofCause c))) ∨
    (s.e.refusal = none ∧ body s.e = none ∧
      runE body s = .next ({ s with e := s.e.setFatal }.respondE (Response.ofCause .indexMiss))) ∨
    (∃ r, s.e.refusal = none ∧ body s.e = some r ∧
      runE body s = .next ({ s with e := r.1 }.respondE (Response.okWith 0 r.2))) := by
  unfold runE
  cases h : s.e.refusal with
  | some c =>
    refine .inl ⟨c, rfl, ?_⟩
    simp only
    rw [raise_refusal]
    · rfl
    · rcases encoder_refusal_eq_some.1 h with ⟨-, rfl⟩ | ⟨-, -, rfl⟩ <;> simp
  | none =>
    cases hb : body s.e with
    | none => exact .inr (.inl ⟨rfl, rfl, rfl⟩)
    | some r => exact .inr (.inr ⟨r, rfl, rfl, rfl⟩)

theorem runE_ok {body : UnitE → Option (UnitE × ByteSeq)} {s : State} {u : UnitE} {data : ByteSeq}
    (h : s.e.refusal = none) (hb : body s.e = some (u, data)) :
    runE body s = .next ({ s with e := u }.respondE (Response.okWith 0 data)) := by
  simp [runE, h, hb]

theorem runE_miss {body : UnitE → Option (UnitE × ByteSeq)} {s : State} (h : s.e.refusal = none) (hb : body s.e = none) :
    runE body s = .next ({ s with e := s.e.setFatal }.respondE (Response.ofCause .indexMiss)) := by
  simp [runE, h, hb, State.raise, State.respond]

/-- All that a command of unit D can do (R151): refused, stopped by the fault of its body, or its effect. -/
theorem runD_cases (body : UnitD → Except Fault (UnitD × ByteSeq)) (s : State) :
    (s.d.refusal = some .protocolAfterFlush ∧
      runD body s = .next (s.respondD (Response.ofCause .protocolAfterFlush))) ∨
    (∃ f, s.d.refusal = none ∧ body s.d = .error f ∧ runD body s = .fault f) ∨
    (∃ r, s.d.refusal = none ∧ body s.d = .ok r ∧
      runD body s = .next ({ s with d := r.1 }.respondD (Response.okWith 0 r.2))) := by
  unfold runD
  cases h : s.d.refusal with
  | some c =>
    obtain ⟨-, rfl⟩ := decoder_refusal_eq_some.1 h
    exact .inl ⟨rfl, rfl⟩
  | none =>
    cases hb : body s.d with
    | error f => exact .inr (.inl ⟨f, rfl, rfl, rfl⟩)
    | ok r => exact .inr (.inr ⟨r, rfl, rfl, rfl⟩)

theorem runD_ok {body : UnitD → Except Fault (UnitD × ByteSeq)} {s : State} {u : UnitD} {data : ByteSeq}
    (h : s.d.refusal = none) (hb : body s.d = .ok (u, data)) :
    runD body s = .next ({ s with d := u }.respondD (Response.okWith 0 data)) := by
  simp [runD, h, hb]

/-- One step, by the input that comes next. -/
theorem step_cases (s : State) :
    (s.inbox = [] ∧ step s = .next s) ∨
    (∃ cw rest, s.inbox = .command cw :: rest ∧ step s = accept cw { s with inbox := rest }) ∨
    (∃ rest, s.inbox = .resetB :: rest ∧ step s = .next { s with inbox := rest }.resetB) ∨
    (∃ t rest, s.inbox = .resetE t :: rest ∧ step s = .next ({ s with inbox := rest }.resetE t)) ∨
    (∃ rest, s.inbox = .resetD :: rest ∧ step s = .next { s with inbox := rest }.resetD) := by
  unfold step State.takeInput
  cases h : s.inbox with
  | nil => exact .inl ⟨rfl, rfl⟩
  | cons i rest =>
    cases i with
    | command cw => exact .inr (.inl ⟨cw, rest, rfl, rfl⟩)
    | resetB => exact .inr (.inr (.inl ⟨rest, rfl, rfl⟩))
    | resetE t => exact .inr (.inr (.inr (.inl ⟨t, rest, rfl, rfl⟩)))
    | resetD => exact .inr (.inr (.inr (.inr ⟨rest, rfl, rfl⟩)))

end Sys2Proof.Laws
end

