-- ==== Sys2Proof/Laws/Exec.lean ====
section
/-! SUPPORT. The meaning of every command as the shared operation of its unit with a body of its own, and that a command of a unit is
such an operation. -/

namespace Sys2Proof.Laws

open Sys2Proof Sys2Proof.Machine

section
variable (sel : BufSel) (bit : Bit) (y : Byte) (s : State)

theorem exec_bpushb : exec (.bpushb sel bit) s =
    runB (fun u => (u.set sel (bbPushBack (u.get sel) bit), Response.done)) s := rfl
theorem exec_bpushf : exec (.bpushf sel bit) s =
    runB (fun u => (u.set sel (bbPushFront (u.get sel) bit), Response.done)) s := rfl
theorem exec_bpopf : exec (.bpopf sel) s =
    runB (fun u => (u.set sel (bbPopFront (u.get sel)).2, popResponse (bbPopFront (u.get sel)).1)) s := rfl
theorem exec_bpopb : exec (.bpopb sel) s =
    runB (fun u => (u.set sel (bbPopBack (u.get sel)).2, popResponse (bbPopBack (u.get sel)).1)) s := rfl
theorem exec_bappb : exec (.bappb sel y) s =
    runB (fun u => (u.set sel (bbAppendBytes (u.get sel) [y]), Response.done)) s := rfl
theorem exec_bpack : exec (.bpack sel) s = runB (fun u => (u, Response.okWith 0 (bbToBytes (u.get sel)))) s := rfl
theorem exec_blen : exec (.blen sel) s = runB (fun u => (u, Response.okWith (bbLength (u.get sel)) [])) s := rfl
theorem exec_bappend : exec (.bappend sel) s =
    runB (fun u => ((u.set sel (bbAppend (u.get sel) (u.get sel.other)).1).set sel.other
      (bbAppend (u.get sel) (u.get sel.other)).2, Response.done)) s := rfl
theorem exec_bcopy : exec (.bcopy sel) s =
    runB (fun u => ((u.set sel (bbCopyFrom (u.get sel) (u.get sel.other)).1).set sel.other
      (bbCopyFrom (u.get sel) (u.get sel.other)).2, Response.done)) s := rfl
theorem exec_eput : exec (.eput y) s = runE (fun u => (u.put s.threshold y).map fun u' => (u', [])) s := rfl
theorem exec_eend : exec .eend s = runE (fun u => some u.emit) s := rfl
theorem exec_eflush : exec .eflush s = runE UnitE.flush s := rfl
theorem exec_dput : exec (.dput y) s = runD (fun u => .ok (u.put y, [])) s := rfl
theorem exec_dend : exec .dend s = runD UnitD.endChunk s := rfl
theorem exec_dflush : exec .dflush s = runD UnitD.flush s := rfl

end

theorem exec_unitB {i : Instr} (h : i.unit = .b) : ∃ body, ∀ s, exec i s = runB body s := by
  cases i with
  | bpushb sel bit => exact ⟨_, exec_bpushb sel bit⟩
  | bpushf sel bit => exact ⟨_, exec_bpushf sel bit⟩
  | bpopf sel => exact ⟨_, exec_bpopf sel⟩
  | bpopb sel => exact ⟨_, exec_bpopb sel⟩
  | bappb sel y => exact ⟨_, exec_bappb sel y⟩
  | bpack sel => exact ⟨_, exec_bpack sel⟩
  | blen sel => exact ⟨_, exec_blen sel⟩
  | bappend sel => exact ⟨_, exec_bappend sel⟩
  | bcopy sel => exact ⟨_, exec_bcopy sel⟩
  | eput _ => cases h
  | eend => cases h
  | eflush => cases h
  | dput _ => cases h
  | dend => cases h
  | dflush => cases h

theorem exec_unitE {i : Instr} (h : i.unit = .e) :
    ∃ body : Config.Threshold → UnitE → Option (UnitE × ByteSeq), ∀ s, exec i s = runE (body s.threshold) s := by
  cases i with
  | eput y => exact ⟨fun t u => (u.put t y).map fun u' => (u', []), exec_eput y⟩
  | eend => exact ⟨fun _ u => some u.emit, exec_eend⟩
  | eflush => exact ⟨fun _ => UnitE.flush, exec_eflush⟩
  | bpushb _ _ => cases h
  | bpushf _ _ => cases h
  | bpopf _ => cases h
  | bpopb _ => cases h
  | bappb _ _ => cases h
  | bpack _ => cases h
  | blen _ => cases h
  | bappend _ => cases h
  | bcopy _ => cases h
  | dput _ => cases h
  | dend => cases h
  | dflush => cases h

theorem exec_unitD {i : Instr} (h : i.unit = .d) : ∃ body, ∀ s, exec i s = runD body s := by
  cases i with
  | dput y => exact ⟨_, exec_dput y⟩
  | dend => exact ⟨_, exec_dend⟩
  | dflush => exact ⟨_, exec_dflush⟩
  | bpushb _ _ => cases h
  | bpushf _ _ => cases h
  | bpopf _ => cases h
  | bpopb _ => cases h
  | bappb _ _ => cases h
  | bpack _ => cases h
  | blen _ => cases h
  | bappend _ => cases h
  | bcopy _ => cases h
  | eput _ => cases h
  | eend => cases h
  | eflush => cases h

end Sys2Proof.Laws
end

