-- ==== Sys2Proof/Laws/Tree.lean ====
section
/-! SUPPORT. The tree builder, said once: what the priority queue holds before each merge, and what each record of a built store
is (spec/41_freqtable_treebuilder.md R116 to R119). -/

namespace Sys2Proof.Laws

open Sys2Proof Sys2Proof.Machine Sys2Proof.Safety

/-- The priority order as R117 has it. -/
theorem before_iff (x y : QueueItem) :
    x.before y = true ↔ x.weight < y.weight ∨ (x.weight = y.weight ∧ x.index < y.index) := by
  simp [QueueItem.before]

theorem before_trans {x y z : QueueItem} (h : x.before y = true) (h' : y.before z = true) : x.before z = true := by
  rw [before_iff] at *; simp only [Fin.lt_def] at *; omega

/-- Keys are distinct where indices are, so one of two nodes comes before the other (R117). -/
theorem before_of_not_before {x y : QueueItem} (hne : x.index ≠ y.index) (h : ¬ x.before y = true) : y.before x = true := by
  rw [before_iff] at *
  have : x.index.val ≠ y.index.val := fun e => hne (Fin.ext e)
  simp only [Fin.lt_def] at *; omega

theorem before_irrefl (x : QueueItem) : ¬ x.before x = true := by
  rw [before_iff]; simp

theorem pqInsert_perm (x : QueueItem) (q : List QueueItem) : (pqInsert x q).Perm (x :: q) := by
  induction q with
  | nil => exact .refl _
  | cons y q ih =>
    unfold pqInsert
    split
    · exact .refl _
    · exact (ih.cons y).trans (.swap x y q)

/-- The queue in priority order. -/
abbrev InOrder (q : List QueueItem) : Prop := q.Pairwise (fun x y => x.before y = true)

theorem pqInsert_inOrder {x : QueueItem} {q : List QueueItem} (hq : InOrder q)
    (hx : ∀ y ∈ q, y.index ≠ x.index) : InOrder (pqInsert x q) := by
  induction q with
  | nil => simp [pqInsert]
  | cons y q ih =>
    obtain ⟨hy, hq'⟩ := List.pairwise_cons.1 hq
    unfold pqInsert
    split
    · next h =>
      refine List.pairwise_cons.2 ⟨fun z hz => ?_, hq⟩
      rcases List.mem_cons.1 hz with rfl | hz
      · exact h
      · exact before_trans h (hy z hz)
    · next h =>
      refine List.pairwise_cons.2 ⟨fun z hz => ?_, ih hq' fun z hz => hx z (.tail _ hz)⟩
      rcases List.mem_cons.1 ((pqInsert_perm x q).mem_iff.1 hz) with rfl | hz
      · exact before_of_not_before (Ne.symm (hx y (.head _))) h
      · exact hy z hz

/-- What holds of the queue `q` when `n` merges are still to come in the building of `store` from `cnt`. -/
structure QueueAt (cnt : FreqTable) (store : NodeStore) (n : Nat) (q : List QueueItem) : Prop where
  bound : n ≤ 255
  records : store.toList.drop (255 - n) = mergeLoop n q
  length : q.length = n + 1
  inOrder : InOrder q
  index_lt : ∀ x ∈ q, x.index.val < 511 - n
  nodup : (q.map QueueItem.index).Nodup
  weight : ∀ x ∈ q, weightOf cnt store x.index = x.weight
  height : ∀ x ∈ q, heightOf store x.index = x.height
  height_le : ∀ x ∈ q, x.height ≤ 255 - n
  total : (q.map QueueItem.weight).sum = ftTotal cnt
  leaves : 256 ≤ (q.map fun x => 2 ^ x.height).sum

theorem toNat_sum_le (l : List Count) : (l.map BitVec.toNat).sum ≤ l.length * (2 ^ 64 - 1) := by
  induction l with
  | nil => simp
  | cons c l ih => have := c.isLt; simp only [List.map_cons, List.sum_cons, List.length_cons]; omega

theorem ftTotal_le (cnt : FreqTable) : ftTotal cnt ≤ 2 ^ 72 - 256 := by
  have := toNat_sum_le cnt.toList
  simp only [Vector.length_toList] at this
  unfold ftTotal; omega

theorem nodeKind_terminal {i : NodeIdx} (h : i.val < 256) : nodeKind i = .terminal (BitVec.ofNat 8 i.val) := by
  simp [nodeKind, h]

theorem nodeKind_interior {i : NodeIdx} (h : 256 ≤ i.val) : nodeKind i = .interior ⟨i.val - 256, by omega⟩ := by
  simp [nodeKind, Nat.not_lt.2 h]

theorem nodeKind_eq_terminal {i : NodeIdx} {v : Byte} : nodeKind i = .terminal v ↔ i.val = v.toNat := by
  unfold nodeKind
  have := v.isLt
  split
  · next h =>
    simp only [NodeKind.terminal.injEq]
    constructor
    · rintro rfl; simp; omega
    · intro e; simp [e]
  · simp; omega

theorem nodeKind_eq_interior {i : NodeIdx} {k : Fin 255} : nodeKind i = .interior k ↔ i.val = 256 + k.val := by
  unfold nodeKind
  split
  · simp; omega
  · simp only [NodeKind.interior.injEq, Fin.ext_iff]; omega

theorem queue_seed_perm (cnt : FreqTable) :
    (pqSeed cnt).Perm ((cnt.toList.zip (List.finRange 256)).map terminalItem) := by
  unfold pqSeed
  generalize (cnt.toList.zip (List.finRange 256)).map terminalItem = l
  induction l with
  | nil => exact .refl _
  | cons x l ih => exact (pqInsert_perm _ _).trans (ih.cons x)

theorem terminalItems_index (cnt : FreqTable) :
    ((cnt.toList.zip (List.finRange 256)).map terminalItem).map (fun x => x.index.val) = List.range 256 := by
  have : ∀ (l : List Count) (r : List (Fin 256)), l.length = r.length →
      ((l.zip r).map terminalItem).map (fun x => x.index.val) = r.map Fin.val := by
    intro l r
    induction l generalizing r with
    | nil => intro h; cases r <;> simp_all
    | cons c l ih => intro h; cases r with
      | nil => simp at h
      | cons v r => simp only [List.zip_cons_cons, List.map_cons]; rw [ih r (by simpa using h)]; rfl
  rw [this _ _ (by simp)]
  simp [List.map_coe_finRange_eq_range]

/-- The members of the seeded queue: each Terminal with its counter (R116). -/
theorem mem_pqSeed {cnt : FreqTable} {x : QueueItem} (h : x ∈ pqSeed cnt) :
    ∃ v : Byte, x.index.val = v.toNat ∧ x.weight = (cnt.count v).toNat ∧ x.height = 0 := by
  have h := (queue_seed_perm cnt).mem_iff.1 h
  obtain ⟨⟨c, v⟩, hm, rfl⟩ := List.mem_map.1 h
  obtain ⟨j, hj, e⟩ := List.getElem_of_mem hm
  simp only [List.getElem_zip, Prod.mk.injEq] at e
  obtain ⟨rfl, rfl⟩ := e
  simp at hj
  refine ⟨BitVec.ofNat 8 j, ?_, ?_, rfl⟩
  · simp [terminalItem]; omega
  · simp [terminalItem, FreqTable.count, Nat.mod_eq_of_lt (show j < 256 by omega)]

theorem pqSeed_indexes (cnt : FreqTable) : ((pqSeed cnt).map (fun x => x.index.val)).Perm (List.range 256) := by
  rw [← terminalItems_index cnt]; exact (queue_seed_perm cnt).map _

theorem pqSeed_nodup (cnt : FreqTable) : ((pqSeed cnt).map QueueItem.index).Nodup := by
  have h := (pqSeed_indexes cnt).nodup_iff.2 List.nodup_range
  rw [show (fun x : QueueItem => x.index.val) = Fin.val ∘ QueueItem.index from rfl, ← List.map_map] at h
  exact List.Nodup.of_map _ h

theorem foldr_pqInsert_inOrder (l : List QueueItem) (h : (l.map QueueItem.index).Nodup) :
    InOrder (l.foldr pqInsert []) := by
  have hperm : ∀ l : List QueueItem, (l.foldr pqInsert []).Perm l := by
    intro l
    induction l with
    | nil => exact .refl _
    | cons x l ih => exact (pqInsert_perm _ _).trans (ih.cons x)
  induction l with
  | nil => exact .nil
  | cons x l ih =>
    simp only [List.map_cons, List.nodup_cons] at h
    refine pqInsert_inOrder (ih h.2) fun y hy e => h.1 ?_
    exact e ▸ List.mem_map_of_mem ((hperm l).mem_iff.1 hy)

theorem queueAt_start (cnt : FreqTable) : QueueAt cnt (buildNodes cnt) 255 (pqSeed cnt) := by
  have hidx : ∀ x ∈ pqSeed cnt, x.index.val < 256 := fun x hx =>
    List.mem_range.1 ((pqSeed_indexes cnt).mem_iff.1 (List.mem_map_of_mem hx))
  refine ⟨Nat.le_refl _, ?_, pqSeed_length cnt, ?_, hidx, pqSeed_nodup cnt, ?_, ?_, ?_, ?_, ?_⟩
  · show List.drop 0 (mergeLoop 255 (pqSeed cnt)) = _
    rw [List.drop_zero]
  · have h := pqSeed_nodup cnt
    unfold pqSeed at h ⊢
    refine foldr_pqInsert_inOrder _ ?_
    exact (((queue_seed_perm cnt).map QueueItem.index).nodup_iff).1 (pqSeed_nodup cnt)
  · intro x hx
    obtain ⟨v, hv, hw, -⟩ := mem_pqSeed hx
    rw [weightOf, nodeKind_eq_terminal.2 hv, hw]
  · intro x hx
    obtain ⟨v, hv, -, hh⟩ := mem_pqSeed hx
    rw [heightOf, nodeKind_eq_terminal.2 hv, hh]
  · intro x hx
    obtain ⟨v, -, -, hh⟩ := mem_pqSeed hx
    omega
  · rw [((queue_seed_perm cnt).map QueueItem.weight).sum_eq, List.map_map, ftTotal]
    congr 1
    have : ∀ (l : List Count) (r : List (Fin 256)), l.length = r.length →
        (l.zip r).map (QueueItem.weight ∘ terminalItem) = l.map BitVec.toNat := by
      intro l r
      induction l generalizing r with
      | nil => intro _; rfl
      | cons c l ih => intro h; cases r with
        | nil => simp at h
        | cons v r => simp only [List.zip_cons_cons, List.map_cons]; rw [ih r (by simpa using h)]; rfl
    exact this _ _ (by simp)
  · have : (pqSeed cnt).map (fun x => 2 ^ x.height) = List.replicate 256 1 := by
      refine List.eq_replicate_iff.2 ⟨by simp [pqSeed_length], fun b hb => ?_⟩
      obtain ⟨x, hx, rfl⟩ := List.mem_map.1 hb
      obtain ⟨v, -, -, hh⟩ := mem_pqSeed hx
      simp [hh]
    rw [this, List.sum_replicate]; decide

theorem children_eq (a b : QueueItem) : children a b = (b.index, a.index) ∧ a.height < b.height ∨
    children a b = (a.index, b.index) ∧ b.height ≤ a.height := by
  unfold children
  rcases Nat.lt_or_ge a.height b.height with h | h
  · left; simp [h]
  · right; simp [Nat.not_lt.2 h, h]

/-- One merge (R118): the two nodes popped become record `254 − n`, and the queue with the new node is the next queue. -/
theorem queueAt_merge {cnt : FreqTable} {store : NodeStore} {n : Nat} {a b : QueueItem} {q : List QueueItem}
    (h : QueueAt cnt store (n + 1) (a :: b :: q)) :
    store[254 - n]'(by omega) = mergedNode a b ∧ QueueAt cnt store n (pqInsert (mergedItem n a b) q) := by
  have hb := h.bound
  have hr := h.records
  have hlen := h.length
  simp only [mergeLoop] at hr
  have hidx : 255 - (n + 1) = 254 - n := by omega
  rw [hidx, List.drop_eq_getElem_cons (by simp; omega)] at hr
  obtain ⟨hnode, hrest⟩ := List.cons.inj hr
  rw [Vector.getElem_toList] at hnode
  have hma := h.height_le a (by simp)
  have hmb := h.height_le b (by simp)
  have htot := h.total
  have hle := ftTotal_le cnt
  simp only [List.map_cons, List.sum_cons] at htot
  have hlt := h.index_lt
  refine ⟨hnode, by omega, ?_, ?_, ?_, ?_, ?_, ?_, ?_, ?_, ?_, ?_⟩
  · rw [← hrest]; congr 1; omega
  · simp [pqInsert_length] at hlen ⊢; omega
  · refine pqInsert_inOrder ?_ fun y hy e => ?_
    · exact (List.pairwise_cons.1 (List.pairwise_cons.1 h.inOrder).2).2
    · have := hlt y (by simp [hy]); rw [e] at this; simp [mergedItem] at this
  · intro x hx
    rcases List.mem_cons.1 ((pqInsert_perm _ _).mem_iff.1 hx) with rfl | hx
    · simp [mergedItem]; omega
    · have := hlt x (by simp [hx]); omega
  · rw [((pqInsert_perm _ _).map _).nodup_iff]
    have hn := h.nodup
    simp only [List.map_cons, List.nodup_cons] at hn ⊢
    refine ⟨fun hm => ?_, hn.2.2⟩
    obtain ⟨y, hy, e⟩ := List.mem_map.1 hm
    have := hlt y (by simp [hy]); rw [e] at this; simp [mergedItem] at this
  · intro x hx
    rcases List.mem_cons.1 ((pqInsert_perm _ _).mem_iff.1 hx) with rfl | hx
    · have hk : nodeKind (mergedItem n a b).index = .interior ⟨254 - n, by omega⟩ :=
        nodeKind_eq_interior.2 (by simp only [mergedItem]; omega)
      rw [weightOf, hk]
      simp only [Fin.getElem_fin, hnode, mergedNode, mergedItem, BitVec.toNat_ofNat]
      exact Nat.mod_eq_of_lt (by omega)
    · exact h.weight x (by simp [hx])
  · intro x hx
    rcases List.mem_cons.1 ((pqInsert_perm _ _).mem_iff.1 hx) with rfl | hx
    · have hk : nodeKind (mergedItem n a b).index = .interior ⟨254 - n, by omega⟩ :=
        nodeKind_eq_interior.2 (by simp only [mergedItem]; omega)
      rw [heightOf, hk]
      simp only [Fin.getElem_fin, hnode, mergedNode, mergedItem, Fin.ofNat]
      exact Nat.mod_eq_of_lt (by omega)
    · exact h.height x (by simp [hx])
  · intro x hx
    rcases List.mem_cons.1 ((pqInsert_perm _ _).mem_iff.1 hx) with rfl | hx
    · simp only [mergedItem]; omega
    · have := h.height_le x (by simp [hx]); omega
  · rw [((pqInsert_perm _ _).map _).sum_eq]
    simp only [List.map_cons, List.sum_cons, mergedItem]; omega
  · rw [((pqInsert_perm _ _).map _).sum_eq]
    have hl := h.leaves
    simp only [List.map_cons, List.sum_cons, mergedItem] at hl ⊢
    have h1 : 2 ^ a.height ≤ 2 ^ max a.height b.height := Nat.pow_le_pow_right (by omega) (Nat.le_max_left _ _)
    have h2 : 2 ^ b.height ≤ 2 ^ max a.height b.height := Nat.pow_le_pow_right (by omega) (Nat.le_max_right _ _)
    rw [Nat.add_comm 1, Nat.pow_succ]; omega

/-- A queue with merges to come has two nodes to pop. -/
theorem queueAt_pops {cnt : FreqTable} {store : NodeStore} {n : Nat} {q : List QueueItem}
    (h : QueueAt cnt store (n + 1) q) : ∃ a b q', q = a :: b :: q' := by
  match q, h.length with
  | a :: b :: q', _ => exact ⟨a, b, q', rfl⟩

/-- Before each merge there is a queue as `QueueAt` says. -/
theorem queueAt_exists (cnt : FreqTable) (n : Nat) (hn : n ≤ 255) : ∃ q, QueueAt cnt (buildNodes cnt) n q := by
  obtain ⟨d, hd⟩ := Nat.exists_eq_add_of_le hn
  induction d generalizing n with
  | zero => obtain rfl : n = 255 := by omega
            exact ⟨_, queueAt_start cnt⟩
  | succ d ih =>
    obtain ⟨q, hq⟩ := ih (n + 1) (by omega) (by omega)
    obtain ⟨a, b, q', rfl⟩ := queueAt_pops hq
    exact ⟨_, (queueAt_merge hq).2⟩

/-- Every record of a built store is that of the merge of the two nodes of lowest key in the queue of its time (R118). -/
theorem record_is_merge (cnt : FreqTable) (k : Fin 255) :
    ∃ a b q, QueueAt cnt (buildNodes cnt) (254 - k.val + 1) (a :: b :: q) ∧ (buildNodes cnt)[k] = mergedNode a b := by
  obtain ⟨q, hq⟩ := queueAt_exists cnt (254 - k.val + 1) (by omega)
  obtain ⟨a, b, q', rfl⟩ := queueAt_pops hq
  refine ⟨a, b, q', hq, ?_⟩
  have := (queueAt_merge hq).1
  simpa [show 254 - (254 - k.val) = k.val by omega] using this

end Sys2Proof.Laws
end

