-- ==== Sys2Proof/Laws/Paths.lean ====
section
/-! SUPPORT. Paths in a node store, for any store: how they compose, what the walk of spec/41_freqtable_treebuilder.md R120 lists,
and what one turn of the decoder's walk (spec/43_decoder.md R154) does. -/

namespace Sys2Proof.Laws

open Sys2Proof Sys2Proof.Machine Sys2Proof.Safety

theorem descend_append (store : NodeStore) (i : NodeIdx) (p q : BitSeq) :
    descend store i (p ++ q) = (descend store i p).bind fun j => descend store j q := by
  induction p generalizing i with
  | nil => rfl
  | cons bit p ih =>
    simp only [List.cons_append, descend]
    split
    · rfl
    · exact ih _

theorem descend_cons {store : NodeStore} {i j : NodeIdx} {bit : Bit} {p : BitSeq} :
    descend store i (bit :: p) = some j ↔
      ∃ k, nodeKind i = .interior k ∧ descend store (store[k].child bit) p = some j := by
  simp only [descend]
  split <;> simp_all

theorem descend_snoc {store : NodeStore} {i j : NodeIdx} {p : BitSeq} {bit : Bit} :
    descend store i (p ++ [bit]) = some j ↔
      ∃ m k, descend store i p = some m ∧ nodeKind m = .interior k ∧ store[k].child bit = j := by
  rw [descend_append, Option.bind_eq_some_iff]
  simp only [descend_cons]
  simp [descend]

/-- No path leads on from a Terminal. -/
theorem descend_terminal {store : NodeStore} {i j : NodeIdx} {v : Byte} {p : BitSeq} (h : nodeKind i = .terminal v)
    (hp : descend store i p = some j) : p = [] ∧ j = i := by
  cases p with
  | nil => simpa [descend, eq_comm] using hp
  | cons bit p => simp [descend, h] at hp

/-- What the walk of R120 lists are paths to Terminals. -/
theorem leafPaths_sound {store : NodeStore} {fuel : Nat} {i : NodeIdx} {path c : BitSeq} {v : Byte}
    (h : (v, c) ∈ leafPaths store fuel i path) :
    ∃ c' j, c = path ++ c' ∧ descend store i c' = some j ∧ nodeKind j = .terminal v := by
  induction fuel generalizing i path with
  | zero => simp [leafPaths] at h
  | succ fuel ih =>
    unfold leafPaths at h
    split at h
    · next w hw =>
      simp only [List.mem_singleton, Prod.mk.injEq] at h
      obtain ⟨rfl, rfl⟩ := h
      exact ⟨[], i, by simp, rfl, hw⟩
    · next k hk =>
      rcases List.mem_append.1 h with h | h
      · obtain ⟨c', j, rfl, h1, h2⟩ := ih h
        exact ⟨false :: c', j, by simp, descend_cons.2 ⟨k, hk, h1⟩, h2⟩
      · obtain ⟨c', j, rfl, h1, h2⟩ := ih h
        exact ⟨true :: c', j, by simp, descend_cons.2 ⟨k, hk, h1⟩, h2⟩

/-- It lists every path to a Terminal, in a store whose nodes have children of smaller index and with fuel above the index. -/
theorem leafPaths_complete {store : NodeStore}
    (hstore : ∀ (k : Fin 255) (bit : Bit), (store[k].child bit).val < 256 + k.val)
    {fuel : Nat} {i j : NodeIdx} {c : BitSeq} {v : Byte} (path : BitSeq) (hfuel : i.val < fuel)
    (hc : descend store i c = some j) (hv : nodeKind j = .terminal v) : (v, path ++ c) ∈ leafPaths store fuel i path := by
  induction fuel generalizing i c path with
  | zero => omega
  | succ fuel ih =>
    unfold leafPaths
    cases c with
    | nil =>
      simp only [descend, Option.some.injEq] at hc
      subst hc
      rw [hv]; simp
    | cons bit c =>
      obtain ⟨k, hk, hd⟩ := descend_cons.1 hc
      rw [hk]
      have hlt := hstore k bit
      have := nodeKind_eq_interior.1 hk
      have := ih (path ++ [bit]) (by omega) hd
      simp only [List.append_assoc, List.cons_append, List.nil_append] at this
      cases bit
      · exact List.mem_append_left _ this
      · exact List.mem_append_right _ this

theorem lookup_of_mem {l : List (Byte × BitSeq)} {v : Byte} {c : BitSeq} (h : (v, c) ∈ l) :
    ∃ c', l.lookup v = some c' ∧ (v, c') ∈ l := by
  induction l with
  | nil => simp at h
  | cons p l ih =>
    obtain ⟨u, d⟩ := p
    rw [List.lookup_cons]
    by_cases hu : v = u
    · subst hu; exact ⟨d, by simp, by simp⟩
    · have hm : (v, c) ∈ l := by
        rcases List.mem_cons.1 h with h | h
        · exact absurd (congrArg Prod.fst h) hu
        · exact h
      obtain ⟨c', h1, h2⟩ := ih hm
      refine ⟨c', ?_, .tail _ h2⟩
      rw [show (v == u) = false by simp [hu]]; exact h1

/-- An entry of the code index, by the walk of R120. -/
theorem codeword_build (cnt : FreqTable) (v : Byte) :
    (build cnt).2.codeword v = (leafPaths (buildNodes cnt) Config.nnode rootIdx []).lookup v := by
  simp [build, codeIndexOf, CodeIndex.codeword]

theorem build_store (cnt : FreqTable) : (build cnt).1 = buildNodes cnt := rfl

theorem nodeKind_root : nodeKind rootIdx = .interior rootPos := by decide

/-- The decoder's walk along a path that reaches a Terminal emits its byte and starts again at the root (R154). -/
theorem walkBits_to_terminal {store : NodeStore} {n : Fin 255} {i j : NodeIdx} {v : Byte} {p : BitSeq} (taken q : BitSeq)
    (hi : nodeKind i = .interior n) (hp : descend store i p = some j) (hv : nodeKind j = .terminal v) :
    walkBits store n taken (p ++ q) = (v :: (walkBits store rootPos [] q).1, (walkBits store rootPos [] q).2) := by
  induction p generalizing n i taken with
  | nil => simp only [descend, Option.some.injEq] at hp; subst hp; rw [hi] at hv; cases hv
  | cons bit p ih =>
    obtain ⟨k, hk, hd⟩ := descend_cons.1 hp
    rw [hi] at hk; cases hk
    simp only [List.cons_append, walkBits]
    cases hkind : nodeKind (store[n].child bit) with
    | terminal w =>
      obtain ⟨rfl, rfl⟩ := descend_terminal hkind hd
      rw [hkind] at hv; cases hv; rfl
    | interior k => exact ih (taken ++ [bit]) hkind hd

/-- The decoder's walk along bits that reach no Terminal emits nothing and restores them all (R154). -/
theorem walkBits_to_end {store : NodeStore} {n : Fin 255} {i : NodeIdx} (taken q : BitSeq) (hi : nodeKind i = .interior n)
    (h : ∀ path j v, path <+: q → descend store i path = some j → nodeKind j ≠ .terminal v) :
    walkBits store n taken q = ([], taken ++ q) := by
  induction q generalizing n i taken with
  | nil => simp [walkBits]
  | cons bit q ih =>
    simp only [walkBits]
    cases hkind : nodeKind (store[n].child bit) with
    | terminal w =>
      exact absurd hkind (h [bit] _ w (by simp) (descend_cons.2 ⟨n, hi, rfl⟩))
    | interior k =>
      simp only
      rw [ih (taken ++ [bit]) hkind]
      · simp
      · intro path j v hpre hd
        exact h (bit :: path) j v (by simpa using hpre) (descend_cons.2 ⟨n, hi, hd⟩)

end Sys2Proof.Laws
end

