-- ==== Sys2Proof/Laws/PerInstr.lean ====
section
/-! SUPPORT. Statements about every command as syntax, one lemma per constructor: the word of a command is well formed. -/

namespace Sys2Proof.Laws.EncodedWord

open Sys2Proof

/-- The word of a command passes the three checks of spec/30_encoding.md R77. -/
def Statement (i : Instr) : Prop := WellFormed (encode i) = true

theorem bpushb (sel : BufSel) (b : Bit) : Statement (.bpushb sel b) := by cases sel <;> cases b <;> (unfold Statement; decide)

theorem bpushf (sel : BufSel) (b : Bit) : Statement (.bpushf sel b) := by cases sel <;> cases b <;> (unfold Statement; decide)

theorem bpopf (sel : BufSel) : Statement (.bpopf sel) := by cases sel <;> (unfold Statement; decide)

theorem bpopb (sel : BufSel) : Statement (.bpopb sel) := by cases sel <;> (unfold Statement; decide)

theorem bappb (sel : BufSel) (y : Byte) : Statement (.bappb sel y) := by
  unfold Statement; cases sel <;> (revert y; decide +kernel)

theorem bpack (sel : BufSel) : Statement (.bpack sel) := by cases sel <;> (unfold Statement; decide)

theorem blen (sel : BufSel) : Statement (.blen sel) := by cases sel <;> (unfold Statement; decide)

theorem bappend (sel : BufSel) : Statement (.bappend sel) := by cases sel <;> (unfold Statement; decide)

theorem bcopy (sel : BufSel) : Statement (.bcopy sel) := by cases sel <;> (unfold Statement; decide)

theorem eput (y : Byte) : Statement (.eput y) := by
  unfold Statement; (revert y; decide +kernel)

theorem eend : Statement .eend := by unfold Statement; decide

theorem eflush : Statement .eflush := by unfold Statement; decide

theorem dput (y : Byte) : Statement (.dput y) := by
  unfold Statement; (revert y; decide +kernel)

theorem dend : Statement .dend := by unfold Statement; decide

theorem dflush : Statement .dflush := by unfold Statement; decide

end Sys2Proof.Laws.EncodedWord
end

