-- ==== Sys2Proof/Laws/Runs.lean ====
section
/-! SUPPORT. Runs over the host's inputs, input by input, and the decoder's walk cut into pieces. -/

namespace Sys2Proof.Laws

open Sys2Proof Sys2Proof.Machine Sys2Proof.Safety

/-- A command neither reads nor writes the inputs that still wait. -/
theorem exec_with_inbox {i : Instr} {s t : State} (h : exec i s = .next t) (q : List HostInput) :
    exec i { s with inbox := q } = .next { t with inbox := q } := by
  cases hu : i.unit with
  | b =>
    obtain ⟨body, hb⟩ := exec_unitB hu
    rw [hb] at h ⊢; cases h; rfl
  | e =>
    obtain ⟨body, hb⟩ := exec_unitE hu
    rw [hb] at h ⊢
    rcases runE_cases (body s.threshold) s with ⟨c, h1, h2⟩ | ⟨h1, h2, h3⟩ | ⟨r, h1, h2, h3⟩
    · rw [h2] at h; cases h
      rcases runE_cases (body s.threshold) { s with inbox := q } with ⟨c', h1', h2'⟩ | ⟨h1', -, -⟩ | ⟨_, h1', -, -⟩
      · rw [h1] at h1'; cases h1'; exact h2'
      all_goals (rw [h1] at h1'; cases h1')
    · rw [h3] at h; cases h
      exact runE_miss (s := { s with inbox := q }) h1 h2
    · rw [h3] at h; cases h
      exact runE_ok (s := { s with inbox := q }) h1 h2
  | d =>
    obtain ⟨body, hb⟩ := exec_unitD hu
    rw [hb] at h ⊢
    rcases runD_cases body s with ⟨h1, h2⟩ | ⟨f, h1, h2, h3⟩ | ⟨r, h1, h2, h3⟩
    · rw [h2] at h; cases h
      rcases runD_cases body { s with inbox := q } with ⟨-, h2'⟩ | ⟨_, h1', -, -⟩ | ⟨_, h1', -, -⟩
      · exact h2'
      all_goals (rw [h1] at h1'; cases h1')
    · rw [h3] at h; cases h
    · rw [h3] at h; cases h
      exact runD_ok (s := { s with inbox := q }) h1 h2

theorem runInputs_nil (s : State) : runInputs [] s = .next { s with inbox := [] } := rfl

theorem runInputs_of_step {i : HostInput} {ins : List HostInput} {s t : State}
    (h : step { s with inbox := i :: ins } = .next { t with inbox := ins }) :
    runInputs (i :: ins) s = runInputs ins t := by
  have run : ∀ (M : Host.Core) (k : Nat) (x y : M.State), M.step x = .next y → M.run (k + 1) x = M.run k y := by
    intro M k x y hxy
    rw [Host.Core.run.eq_def]
    simp only [hxy]
  exact run core ins.length _ _ h

/-- The first input of a run, when it is a command that gives a next state. -/
theorem runInputs_command {cw : CmdWord} {i : Instr} {s t : State} (hd : decode cw = .ok i) (h : exec i s = .next t)
    (ins : List HostInput) : runInputs (.command cw :: ins) s = runInputs ins t := by
  have hs : step { s with inbox := .command cw :: ins } = .next { t with inbox := ins } := by
    show accept cw { s with inbox := ins } = _
    rw [accept, hd]
    exact exec_with_inbox h ins
  exact runInputs_of_step hs

/-- The first input of a run, when it is an illegal word. -/
theorem runInputs_illegal {cw : CmdWord} {why : Illegal} (hd : decode cw = .error why) (s : State)
    (ins : List HostInput) :
    runInputs (.command cw :: ins) s = runInputs ins (s.raise (answerer cw) .illegalCommand) := by
  have hs : step { s with inbox := .command cw :: ins } =
      .next { s.raise (answerer cw) .illegalCommand with inbox := ins } := by
    show accept cw { s with inbox := ins } = _
    rw [accept, hd]
    cases answerer cw with
    | none => rfl
    | some u => cases u <;> rfl
  exact runInputs_of_step hs

theorem runInputs_resetB (s : State) (ins : List HostInput) : runInputs (.resetB :: ins) s = runInputs ins s.resetB := rfl

theorem runInputs_resetE (t : Config.Threshold) (s : State) (ins : List HostInput) :
    runInputs (.resetE t :: ins) s = runInputs ins (s.resetE t) := rfl

theorem runInputs_resetD (s : State) (ins : List HostInput) : runInputs (.resetD :: ins) s = runInputs ins s.resetD := rfl

/-- The decoder's walk of `p ++ q`: what it gives for `p`, then what it gives for the bits `p` leaves over with `q` behind them. -/
theorem walkBits_append {store : NodeStore} {n : Fin 255} {i : NodeIdx} {taken : BitSeq}
    (ht : descend store rootIdx taken = some i) (hi : nodeKind i = .interior n) (p q : BitSeq) :
    walkBits store n taken (p ++ q) =
      ((walkBits store n taken p).1 ++ (walkBits store rootPos [] ((walkBits store n taken p).2 ++ q)).1,
        (walkBits store rootPos [] ((walkBits store n taken p).2 ++ q)).2) := by
  -- the bits taken so far lead from the root to node `i`, without a Terminal on the way
  have back : ∀ (pre r : BitSeq) (m j : NodeIdx) (k k' : Fin 255) (acc : BitSeq), nodeKind m = .interior k →
      descend store m pre = some j → nodeKind j = .interior k' →
      walkBits store k acc (pre ++ r) = walkBits store k' (acc ++ pre) r := by
    intro pre
    induction pre with
    | nil =>
      intro r m j k k' acc hm hd hj
      simp only [descend, Option.some.injEq] at hd
      subst hd
      rw [hm] at hj; cases hj
      simp
    | cons bit pre ih =>
      intro r m j k k' acc hm hd hj
      obtain ⟨k₁, hk₁, hd⟩ := descend_cons.1 hd
      rw [hm] at hk₁; cases hk₁
      simp only [List.cons_append, walkBits]
      cases hkind : nodeKind (store[k].child bit) with
      | terminal v =>
        obtain ⟨-, rfl⟩ := descend_terminal hkind hd
        rw [hkind] at hj; cases hj
      | interior k₂ =>
        simp only
        rw [ih r _ j k₂ k' (acc ++ [bit]) hkind hd hj]
        simp
  induction p generalizing n i taken with
  | nil =>
    simp only [List.nil_append, walkBits]
    rw [back taken q rootIdx i rootPos n [] nodeKind_root ht hi]
    simp
  | cons bit p ih =>
    simp only [List.cons_append, walkBits]
    cases hkind : nodeKind (store[n].child bit) with
    | terminal v =>
      simp only
      rw [ih (taken := []) (i := rootIdx) rfl nodeKind_root]
      simp
    | interior k =>
      simp only
      exact ih (descend_snoc.2 ⟨i, n, ht, hi, rfl⟩) hkind

end Sys2Proof.Laws
end

