-- ==== Sys2Proof/Tests/Slice0.lean ====
section
/-! SUPPORT. Tests: words the checks refuse, words written out from the encodings of the spec, single steps from the vectors of
spec/95_test_vectors.md, and for every statement with hypotheses a state and operands that meet them. -/

namespace Sys2Proof.Tests

open Sys2Proof Sys2Proof.Machine Sys2Proof.Safety Sys2Proof.Laws

/-! ### Helpers -/

/-- A bit sequence written with 0 and 1, front first. -/
def bits (q : List Nat) : BitSeq := q.map (· == 1)

/-- The state a step leads to, where it leads to one. -/
def after (o : Host.Outcome State Fault Refusal) : Option State :=
  match o with
  | .next s => some s
  | .fault _ => none
  | .refused _ => none

/-- Right after reset, but for the two buffers of unit B. -/
def withB (q0 q1 : BitSeq) : State := { State.reset with b := { bb0 := q0, bb1 := q1 } }

/-- Right after reset, but for unit E. -/
def withE (u : UnitE) : State := { State.reset with e := u }

/-- Right after reset, but for unit D. -/
def withD (u : UnitD) : State := { State.reset with d := u }

/-- Unit B's buffers and the last response, after a command. -/
def resultB (o : Host.Outcome State Fault Refusal) : Option (BitSeq × BitSeq × List Response) :=
  (after o).map fun t => (t.b.bb0, t.b.bb1, t.respB)

/-- The node store of equal counters, from the formula of T19: node `256 + k` is `(2k, 2k + 1)`. -/
def balanced : NodeStore :=
  Vector.ofFn fun k : Fin 255 => { left := ⟨2 * k.val, by omega⟩, right := ⟨2 * k.val + 1, by omega⟩, weight := 0, height := 8 }

/-- A code index in which only byte 0x41 has a codeword, "1" (T20). -/
def onlyA : CodeIndex := CodeIndex.absent.set 0x41 (some [true])

/-- Unit E in `Encoding` with what stands in `e_out` and the given code index. -/
def encodingWith (out : BitSeq) (code : CodeIndex) : UnitE :=
  { UnitE.reset with state := .encoding, out := out, node := some balanced, code := code }

/-- Unit E in `Encoding` as the freeze of a table leaves it. -/
def frozen (cnt : FreqTable) : UnitE :=
  { UnitE.reset with state := .encoding, cnt := cnt, node := some (build cnt).1, code := (build cnt).2 }

/-- Unit D in `Decoding` as the header step leaves it, with what stands in `d_in`. -/
def headerRead (cnt : FreqTable) (q : BitSeq) : UnitD :=
  { UnitD.reset with state := .decoding, inp := q, cnt := some cnt, node := some (build cnt).1 }

/-! ### Words the checks refuse (R77) -/

theorem test_wellformed_refuses_unit :
    unitNamed 0x0000 = false ∧ unitNamed 0x4000 = false ∧ unitNamed 0xFFFF = false ∧ WellFormed 0x5000 = false := by decide

theorem test_wellformed_refuses_funct :
    functUsed 0x2300 = false ∧ functUsed 0x2F00 = false ∧ functUsed 0x3300 = false ∧ WellFormed 0x2300 = false := by decide

theorem test_wellformed_refuses_must_be_zero :
    mustBeZeroClear 0x1002 = false ∧ mustBeZeroClear 0x1180 = false ∧ mustBeZeroClear 0x1201 = false ∧
      mustBeZeroClear 0x1702 = false ∧ mustBeZeroClear 0x1F02 = false ∧ mustBeZeroClear 0x2101 = false ∧
      WellFormed 0x17FF = false ∧ WellFormed 0x3101 = false := by decide

/-- T12, T41, T51: the words the spec calls illegal are refused by name. -/
theorem test_illegal_words_by_name :
    decode 0x0000 = .error .noSuchUnit ∧ decode 0x4000 = .error .noSuchUnit ∧ decode 0xFFFF = .error .noSuchUnit ∧
      decode 0x2300 = .error .unusedFunct ∧ decode 0x3300 = .error .unusedFunct ∧ decode 0x1002 = .error .mustBeZero ∧
      decode 0x1702 = .error .mustBeZero ∧ decode 0x2101 = .error .mustBeZero ∧ decode 0x3101 = .error .mustBeZero :=
  ⟨rfl, rfl, rfl, rfl, rfl, rfl, rfl, rfl, rfl⟩

/-! ### Words written out bit by bit: unit, then s and fn or funct, then arg (R70 to R75) -/

theorem test_decode_bpushb : decode 0b0001_1_000_0000000_1 = .ok (.bpushb .bb1 true) := rfl
theorem test_decode_bpushf : decode 0b0001_0_001_0000000_0 = .ok (.bpushf .bb0 false) := rfl
theorem test_decode_bpopf : decode 0b0001_1_010_00000000 = .ok (.bpopf .bb1) := rfl
theorem test_decode_bpopb : decode 0b0001_0_011_00000000 = .ok (.bpopb .bb0) := rfl
theorem test_decode_bappb : decode 0b0001_0_100_10100101 = .ok (.bappb .bb0 0xA5) := rfl
theorem test_decode_bpack : decode 0b0001_1_101_00000000 = .ok (.bpack .bb1) := rfl
theorem test_decode_blen : decode 0b0001_0_110_00000000 = .ok (.blen .bb0) := rfl
theorem test_decode_bappend : decode 0b0001_1_111_0000000_0 = .ok (.bappend .bb1) := rfl
theorem test_decode_bcopy : decode 0b0001_0_111_0000000_1 = .ok (.bcopy .bb0) := rfl
theorem test_decode_eput : decode 0b0010_0000_01000001 = .ok (.eput 0x41) := rfl
theorem test_decode_eend : decode 0b0010_0001_00000000 = .ok .eend := rfl
theorem test_decode_eflush : decode 0b0010_0010_00000000 = .ok .eflush := rfl
theorem test_decode_dput : decode 0b0011_0000_11110000 = .ok (.dput 0xF0) := rfl
theorem test_decode_dend : decode 0b0011_0001_00000000 = .ok .dend := rfl
theorem test_decode_dflush : decode 0b0011_0010_00000000 = .ok .dflush := rfl

/-- The host's numbering of a word, and a step that runs it. -/
theorem test_fetch_word : decodeTableWord 16 0x1001 = some (.bpushb .bb0 true) ∧
    (after (step (State.reset.withFetchWord 16 0x1001))).map (fun t => (t.b.bb0, t.inbox)) = some ([true], []) := by decide

/-! ### Unit B, one step each (T3 to T11, P1) -/

theorem test_bpushb : resultB (exec (.bpushb .bb0 true) (withB (bits [1, 0]) [])) =
    some (bits [1, 0, 1], [], [⟨.ok, 0, []⟩]) := by decide
theorem test_bpushf : resultB (exec (.bpushf .bb0 false) (withB (bits [1, 0]) [])) =
    some (bits [0, 1, 0], [], [⟨.ok, 0, []⟩]) := by decide
theorem test_bpopf : resultB (exec (.bpopf .bb0) (withB (bits [1, 0]) (bits [1]))) =
    some (bits [0], bits [1], [⟨.ok, 1, []⟩]) := by decide
theorem test_bpopf_absent : resultB (exec (.bpopf .bb0) (withB [] (bits [1]))) =
    some ([], bits [1], [⟨.absent, 0, []⟩]) := by decide
theorem test_bpopb : resultB (exec (.bpopb .bb0) (withB (bits [1, 0, 1]) [])) =
    some (bits [1, 0], [], [⟨.ok, 1, []⟩]) := by decide
theorem test_bpopb_absent : resultB (exec (.bpopb .bb1) (withB (bits [1]) [])) =
    some (bits [1], [], [⟨.absent, 0, []⟩]) := by decide
theorem test_bappb : resultB (exec (.bappb .bb0 0xA5) (withB (bits [1]) [])) =
    some (bits [1, 1, 0, 1, 0, 0, 1, 0, 1], [], [⟨.ok, 0, []⟩]) := by decide
theorem test_bpack : resultB (exec (.bpack .bb0) (withB (bits [0, 1, 0, 1, 0, 0, 1, 0, 1, 1]) [])) =
    some (bits [0, 1, 0, 1, 0, 0, 1, 0, 1, 1], [], [⟨.ok, 0, [0x52, 0xC0]⟩]) := by decide
theorem test_bpack_short : resultB (exec (.bpack .bb0) (withB (bits [0, 0, 0, 0, 0, 0, 1]) [])) =
    some (bits [0, 0, 0, 0, 0, 0, 1], [], [⟨.ok, 0, [0x02]⟩]) := by decide
theorem test_blen : resultB (exec (.blen .bb0) (withB (bits [0, 1, 0, 1, 0, 0, 1, 0, 1, 1]) (bits [1]))) =
    some (bits [0, 1, 0, 1, 0, 0, 1, 0, 1, 1], bits [1], [⟨.ok, 10, []⟩]) := by decide
theorem test_bappend : resultB (exec (.bappend .bb1) (withB (bits [1, 0, 1, 0, 0, 1, 0, 1]) (bits [1, 1]))) =
    some ([], bits [1, 1, 1, 0, 1, 0, 0, 1, 0, 1], [⟨.ok, 0, []⟩]) := by decide
theorem test_bcopy : resultB (exec (.bcopy .bb1) (withB (bits [1, 0, 1, 0, 0, 1, 0, 1]) (bits [1]))) =
    some (bits [1, 0, 1, 0, 0, 1, 0, 1], bits [1, 1, 0, 1, 0, 0, 1, 0, 1], [⟨.ok, 0, []⟩]) := by decide

/-! ### Unit E, one step each (P2, T31, T34, T40, P6) -/

/-- P2 step 1: the byte is counted and held. -/
theorem test_eput_collects :
    (after (exec (.eput 0x41) State.reset)).map (fun t => (t.e.cnt.count 0x41, t.e.pend, t.respE)) =
      some (1, [0x41], [⟨.ok, 0, []⟩]) := by decide

/-- In `Encoding` the codeword goes to the back of `e_out`, and the byte is not counted (P5 step 3, with the codeword "1"). -/
theorem test_eput_encodes :
    (after (exec (.eput 0x41) (withE (encodingWith (bits [0, 0]) onlyA)))).map (fun t => (t.e.out, t.e.cnt.count 0x41, t.respE)) =
      some (bits [0, 0, 1], 0, [⟨.ok, 0, []⟩]) := by decide

/-- T31: an unaligned `e_out` gives up nothing. -/
theorem test_eend_unaligned :
    (after (exec .eend (withE (encodingWith (bits [1, 1, 1, 1, 0, 0, 0, 0, 1]) onlyA)))).map (fun t => (t.e.out, t.respE)) =
      some (bits [1, 1, 1, 1, 0, 0, 0, 0, 1], [⟨.ok, 0, []⟩]) := by decide

/-- T34: an aligned one gives up all. -/
theorem test_eend_aligned :
    (after (exec .eend (withE (encodingWith (bits [1, 1, 1, 1, 0, 0, 0, 0]) onlyA)))).map (fun t => (t.e.out, t.respE)) =
      some ([], [⟨.ok, 0, [0xF0]⟩]) := by decide

/-- P2 step 7: the padding of "1111" gives F0, and the session is closed. -/
theorem test_eflush_pads :
    (after (exec .eflush (withE (encodingWith (bits [1, 1, 1, 1]) onlyA)))).map (fun t => (t.e.out, t.e.flushed, t.respE)) =
      some ([], true, [⟨.ok, 0, [0xF0]⟩]) := by decide

/-- P6 steps 1 and 2: an illegal word sent to a flushed unit is cause 1, a legal one cause 3. -/
theorem test_flushed_refusals :
    (after (accept 0x2101 (withE { UnitE.reset with flushed := true }))).map (·.respE) = some [⟨.refused, 1, []⟩] ∧
      (after (accept 0x2100 (withE { UnitE.reset with flushed := true }))).map (·.respE) = some [⟨.refused, 3, []⟩] := by decide

/-- P6 step 3: a word that names no unit is answered by the dispatcher. -/
theorem test_dispatcher_refuses :
    (after (accept 0x5000 State.reset)).map (fun t => (t.respB, t.respE, t.respD, t.respX)) =
      some ([], [], [], [⟨.refused, 1, []⟩]) := by decide

/-! ### Unit D, one step each (R152, T45, T48, T50, T51) -/

/-- R152's example. -/
theorem test_dput :
    (after (exec (.dput 0x80) (withD { UnitD.reset with inp := bits [0, 0] }))).map (fun t => (t.d.inp, t.respD)) =
      some (bits [0, 0, 1, 0, 0, 0, 0, 0, 0, 0], [⟨.ok, 0, []⟩]) := by decide

/-- T45: with the identity code the bytes come out as they are; the bits after them stay (T46's residual is of this kind). -/
theorem test_dend_walks :
    (after (exec .dend (withD { UnitD.reset with
        state := .decoding, inp := [0x48, 0x69].flatMap bits8 ++ bits [0, 1, 1], cnt := some FreqTable.empty,
        node := some balanced }))).map (fun t => (t.d.inp, t.respD)) =
      some (bits [0, 1, 1], [⟨.ok, 0, [0x48, 0x69]⟩]) := by decide +kernel

/-- T50: a `DEND` without the whole header changes nothing and returns nothing. -/
theorem test_dend_waits :
    (after (exec .dend (withD { UnitD.reset with inp := bits [1, 0, 1] }))).map (fun t => (t.d, t.respD)) =
      some ({ UnitD.reset with inp := bits [1, 0, 1] }, [⟨.ok, 0, []⟩]) := by decide +kernel

/-- T50 and T51: `DFLUSH` closes the session, and `DFLUSH` again is refused. -/
theorem test_dflush :
    (after (exec .dflush State.reset)).map (fun t => (t.d.flushed, t.d.inp, t.respD)) = some (true, [], [⟨.ok, 0, []⟩]) ∧
      (after (exec .dflush (withD { UnitD.reset with flushed := true }))).map (·.respD) =
        some [⟨.refused, 3, []⟩] := by decide +kernel

/-! ### The tree of T20 and R126 -/

/-- The table of T20: `cnt[0x41] = 4`, all else 0. -/
def tableA : FreqTable := FreqTable.empty.set 0x41 4

/-- T20: records and codewords, and T46's walk of the payload byte F0 in that tree. -/
theorem test_tree_of_T20 :
    (buildNodes tableA)[127] = { left := 256, right := 255, weight := 0, height := 2 } ∧
      (buildNodes tableA)[253] = { left := 507, right := 508, weight := 0, height := 8 } ∧
      (buildNodes tableA)[254] = { left := 509, right := 65, weight := 4, height := 9 } ∧
      (build tableA).2.codeword 0x41 = some (bits [1]) ∧
      (build tableA).2.codeword 0xFF = some (bits [0, 0, 0, 0, 0, 0, 0, 1]) ∧
      (build tableA).2.codeword 0x00 = some (bits [0, 0, 0, 0, 0, 0, 0, 0, 0]) ∧
      (build tableA).2.codeword 0x42 = some (bits [0, 0, 1, 0, 0, 0, 0, 1, 1]) ∧
      walkBits (build tableA).1 rootPos [] (bits8 0xF0) = ([0x41, 0x41, 0x41, 0x41], bits [0, 0, 0, 0]) ∧
      descend (build tableA).1 rootIdx (bits [1]) = some 65 ∧
      (build tableA).2.toList.all Option.isSome = true := by decide +kernel

/-! ### Witnesses: for each statement with hypotheses, a state and operands that meet them, clause by clause -/

/-- `THRESHOLD` at its least value. -/
def thresholdZero : Config.Threshold := ⟨0, by decide⟩

/-- Unit E holding one byte. -/
def holdingOne : UnitE := { UnitE.reset with cnt := ftPush FreqTable.empty 0x41, pend := [0x41] }

theorem blockInv_frozen (cnt : FreqTable) (flushed : Bool) : BlockInv (withE { frozen cnt with flushed := flushed }) where
  encoder :=
    { collecting := fun h => by cases h
      encoding := fun _ => ⟨rfl, rfl, rfl⟩
      fatal := rfl
      flushed := fun _ => ⟨rfl, rfl⟩ }
  decoder := { awaiting := fun _ => ⟨rfl, rfl⟩, decoding := fun h => (by cases h) }

theorem blockInv_holdingOne : BlockInv (withE holdingOne) where
  encoder :=
    { collecting := fun _ => ⟨rfl, rfl, rfl, by decide +kernel, by decide⟩
      encoding := fun h => by cases h
      fatal := rfl
      flushed := fun h => by cases h }
  decoder := { awaiting := fun _ => ⟨rfl, rfl⟩, decoding := fun h => (by cases h) }

theorem blockInv_headerRead (cnt : FreqTable) (q : BitSeq) :
    BlockInv { withE (frozen cnt) with d := headerRead cnt q } where
  encoder := (blockInv_frozen cnt false).encoder
  decoder := { awaiting := fun h => (by cases h), decoding := fun _ => ⟨cnt, rfl, rfl⟩ }

theorem witness_DecodeAndEncodeAgree : decode 0x1F01 = .ok (.bcopy .bb1) := rfl

theorem witness_WordsSelectTheirRowOnly : decode 0x14A5 = .ok (.bappb .bb0 0xA5) ∧ decode 0x1702 = .error .mustBeZero := ⟨rfl, rfl⟩

theorem witness_StepRunsDecodedCommand :
    ∃ (s : State) (cw : CmdWord) (rest : List HostInput) (i : Instr), s.inbox = HostInput.command cw :: rest ∧ decode cw = .ok i :=
  ⟨{ State.reset with inbox := [.command 0x2041, .resetD] }, 0x2041, [.resetD], .eput 0x41, rfl, rfl⟩

/-- One illegal word for each unit, and the two ends of the unit codes that name none. -/
theorem witness_IllegalWordIsRefused :
    ∀ cw ∈ ([0x1002, 0x1702, 0x2300, 0x2101, 0x3300, 0x3101, 0x0000, 0x0FFF, 0x4000, 0xFFFF] : List CmdWord),
      ∃ s : State, s.inbox = .command cw :: [] ∧ (opcodeTable.all fun r => !r.selectedBy cw) = true :=
  have all : ([0x1002, 0x1702, 0x2300, 0x2101, 0x3300, 0x3101, 0x0000, 0x0FFF, 0x4000, 0xFFFF] : List CmdWord).all
      (fun cw => opcodeTable.all fun r => !r.selectedBy cw) = true := by decide +kernel
  fun cw h => ⟨{ State.reset with inbox := [.command cw] }, rfl, List.all_eq_true.1 all cw h⟩

theorem witness_ResetGivesSpecValues :
    ∃ s₁ s₂ s₃ : State, s₁.inbox = HostInput.resetB :: [] ∧ s₂.inbox = HostInput.resetE thresholdZero :: [] ∧
      s₃.inbox = HostInput.resetD :: [] :=
  ⟨{ withB [true] [] with inbox := [.resetB] }, { withE holdingOne with inbox := [.resetE thresholdZero] },
    { State.reset with inbox := [.resetD] }, rfl, rfl, rfl⟩

theorem witness_IdleBlockKeepsItsState : (withE holdingOne).inbox = [] := rfl

/-- A command that ends with each of the four statuses, and with each cause a legal command can have. -/
theorem witness_EveryCommandGivesOneResponse :
    (after (exec (.blen .bb0) (withB [true] []))).map (·.respB) = some [⟨.ok, 1, []⟩] ∧
      (after (exec (.bpopf .bb0) State.reset)).map (·.respB) = some [⟨.absent, 0, []⟩] ∧
      (after (exec .eend (withE { UnitE.reset with fatal := true }))).map (·.respE) = some [⟨.refused, 2, []⟩] ∧
      (after (exec .dend (withD { UnitD.reset with flushed := true }))).map (·.respD) = some [⟨.refused, 3, []⟩] ∧
      (after (exec (.eput 0) (withE (encodingWith [] CodeIndex.absent)))).map (·.respE) = some [⟨.fatal, 4, []⟩] := by decide

/-- For every `fn` whose row leaves bits that must be 0, a word of unit B with that `fn` that does not match the row. -/
theorem witness_OtherWordsRefused :
    (unitField 0x1002 = 1 ∧ fnField 0x1002 = 0 ∧ (0x1002 : CmdWord) &&& 0xF7FE ≠ 0x1000) ∧
      (unitField 0x1180 = 1 ∧ fnField 0x1180 = 1 ∧ (0x1180 : CmdWord) &&& 0xF7FE ≠ 0x1100) ∧
      (unitField 0x1201 = 1 ∧ fnField 0x1201 = 2 ∧ (0x1201 : CmdWord) &&& 0xF7FF ≠ 0x1200) ∧
      (unitField 0x1B80 = 1 ∧ fnField 0x1B80 = 3 ∧ (0x1B80 : CmdWord) &&& 0xF7FF ≠ 0x1300) ∧
      (unitField 0x1501 = 1 ∧ fnField 0x1501 = 5 ∧ (0x1501 : CmdWord) &&& 0xF7FF ≠ 0x1500) ∧
      (unitField 0x1601 = 1 ∧ fnField 0x1601 = 6 ∧ (0x1601 : CmdWord) &&& 0xF7FF ≠ 0x1600) ∧
      (unitField 0x1702 = 1 ∧ fnField 0x1702 = 7 ∧ (0x1702 : CmdWord) &&& 0xF7FE ≠ 0x1700) := by decide

theorem witness_BpopfTakesTheFrontBit :
    (withB [] [true]).b.get .bb0 = [] ∧ (withB [true, false] []).b.get .bb0 = true :: [false] ∧
      ∃ t, exec (.bpushf .bb1 true) State.reset = .next t :=
  ⟨rfl, rfl, _, exec_bpushf _ _ _⟩

theorem witness_BpopbTakesTheBackBit :
    (withB [] [true]).b.get .bb0 = [] ∧ (withB [true, false] []).b.get .bb0 = [true] ++ [false] ∧
      (withB [] [true]).b.get .bb1 = [true] ∧ ∃ t, exec (.bpushb .bb1 true) State.reset = .next t :=
  ⟨rfl, rfl, rfl, _, exec_bpushb _ _ _⟩

/-- The first and the last bit of a packed byte. -/
theorem witness_BpackPacksWithZeroPadding :
    (bbToBytes ((withB (bits [0, 1, 0, 1, 0, 0, 1, 0, 1, 1]) []).b.get .bb0))[1]? = some 0xC0 ∧ 0 < 8 ∧ 7 < 8 := by decide

theorem witness_BcopyKeepsTheOther :
    ∃ t u, exec (.bcopy .bb0) (withB [] [true]) = .next t ∧ exec (.bappend .bb0) (withB [] [true]) = .next u :=
  ⟨_, _, exec_bcopy _ _, exec_bappend _ _⟩

theorem witness_BitBufferLaws :
    ([] : BitSeq).length % 8 = 0 ∧ (bits8 0xA5).length % 8 = 0 ∧ ([0x12, 0xA5] : ByteSeq)[1]? = some 0xA5 ∧ 0 < 8 ∧ 7 < 8 := by
  decide

theorem witness_PushCountsOneByte :
    ((0 : Byte) ≠ 255 ∧ FreqTable.empty.count 255 ≠ 0xFFFFFFFFFFFFFFFF ∧
      FreqTable.count (FreqTable.empty.set 7 0xFFFFFFFFFFFFFFFF) 7 = 0xFFFFFFFFFFFFFFFF) ∧
      BlockInv (withE holdingOne) ∧ (withE holdingOne).e.state = .collecting :=
  ⟨by decide +kernel, blockInv_holdingOne, rfl⟩

theorem witness_HeaderBytesAreBigEndianCounters :
    (List.replicate 2048 (0x80 : Byte)).length = 2048 ∧ 0 < 8 ∧ 7 < 8 := ⟨List.length_replicate, by decide, by decide⟩

theorem witness_HeaderRoundTrip : (List.replicate 2048 (0 : Byte)).length = 2048 := List.length_replicate

theorem witness_BuiltTreeIsAFullTree : (0 : NodeIdx) ≠ rootIdx ∧ (509 : NodeIdx) ≠ rootIdx := by decide

theorem witness_EveryByteHasOneCodeword :
    descend (build tableA).1 rootIdx (bits [1]) = some 65 ∧ nodeKind 65 = .terminal 0x41 :=
  ⟨test_tree_of_T20.2.2.2.2.2.2.2.2.1, by decide⟩

/-- A codeword that is a prefix of a codeword (its own), a bit sequence of 255 bits, and the two paths of zeros at the ends of the
range in which no Terminal is reached. -/
theorem witness_CodeIsPrefixFreeAndComplete :
    (∃ c, (build tableA).2.codeword 0x41 = some c ∧ c <+: c) ∧ 255 ≤ (zeros 255).length :=
  ⟨⟨_, test_tree_of_T20.2.2.2.1, List.prefix_refl _⟩, (List.length_replicate (n := 255)).ge⟩

theorem witness_AllZerosCodewordIsLongest :
    (∃ c, (build tableA).2.codeword 0x41 = some c) ∧
      ∃ i j, descend balanced rootIdx (zeros 0) = some i ∧ descend balanced rootIdx (zeros 7) = some j :=
  ⟨⟨_, test_tree_of_T20.2.2.2.1⟩, 510, 256, by decide +kernel, by decide +kernel⟩

theorem witness_FrequentBytesGetNoLongerCodewords :
    ∃ cu cv, (tableA.count 0x42).toNat < (tableA.count 0x41).toNat ∧ (build tableA).2.codeword 0x41 = some cu ∧
      (build tableA).2.codeword 0x42 = some cv :=
  ⟨_, _, by decide, test_tree_of_T20.2.2.2.1, test_tree_of_T20.2.2.2.2.2.2.1⟩

/-- Counters all 0, and all at the top of their range. -/
theorem witness_EqualCountersGiveTheIdentityCode :
    (∀ v, FreqTable.empty.count v = 0) ∧
      ∀ v, FreqTable.count (Vector.replicate 256 0xFFFFFFFFFFFFFFFF) v = 0xFFFFFFFFFFFFFFFF :=
  ⟨fun v => by simp [FreqTable.count, FreqTable.empty], fun v => by simp [FreqTable.count]⟩

/-- Units E and D halted and flushed: the prologue clauses of the statements about their commands. -/
theorem witness_prologue_clauses :
    (∃ s : State, s.e.fatal = true) ∧ (∃ s : State, s.e.fatal = false ∧ s.e.flushed = true) ∧ ∃ s : State, s.d.flushed = true :=
  ⟨⟨withE { UnitE.reset with fatal := true, flushed := true }, rfl⟩, ⟨withE { UnitE.reset with flushed := true }, rfl, rfl⟩,
    withD { UnitD.reset with flushed := true }, rfl⟩

/-- For each E and D command without an operand the words next to its own that are illegal. -/
theorem witness_prologue_words :
    (unitField 0x2101 = 2 ∧ functField 0x2101 = 1 ∧ (0x2101 : CmdWord) ≠ 0x2100) ∧
      (unitField 0x2280 = 2 ∧ functField 0x2280 = 2 ∧ (0x2280 : CmdWord) ≠ 0x2200) ∧
      (unitField 0x3101 = 3 ∧ functField 0x3101 = 1 ∧ (0x3101 : CmdWord) ≠ 0x3100) ∧
      unitField 0x3280 = 3 ∧ functField 0x3280 = 2 ∧ (0x3280 : CmdWord) ≠ 0x3200 := by decide

/-- Unit E open: a byte with room left for it up to the last place, one too many (with `THRESHOLD` at 3 and at 0), and `Encoding`. -/
theorem witness_EputCountsThenEncodes :
    (OpenE State.reset ∧ State.reset.e.state = .collecting ∧ State.reset.e.pend.length + 1 ≤ State.reset.threshold.val) ∧
      (∃ s : State, OpenE s ∧ s.e.state = .collecting ∧ s.e.pend.length + 1 = s.threshold.val) ∧
      (∃ s : State, OpenE s ∧ s.e.state = .collecting ∧ s.e.pend.length = s.threshold.val ∧ s.threshold.val < s.e.pend.length + 1) ∧
      (∃ s : State, OpenE s ∧ s.e.state = .collecting ∧ s.threshold = thresholdZero ∧ s.threshold.val < s.e.pend.length + 1) ∧
      (∃ (s : State) (c : BitSeq), OpenE s ∧ s.e.state = .encoding ∧ s.e.code.codeword 0x41 = some c) ∧
      ∃ s : State, OpenE s ∧ s.e.state = .encoding ∧ s.e.code.codeword 0x42 = none :=
  ⟨⟨⟨rfl, rfl⟩, rfl, by decide⟩, ⟨withE { UnitE.reset with pend := [1, 2] }, ⟨rfl, rfl⟩, rfl, rfl⟩,
    ⟨withE { UnitE.reset with pend := [1, 2, 3] }, ⟨rfl, rfl⟩, rfl, rfl, by decide⟩,
    ⟨{ State.reset with threshold := thresholdZero }, ⟨rfl, rfl⟩, rfl, rfl, by decide⟩,
    ⟨withE (encodingWith [] onlyA), [true], ⟨rfl, rfl⟩, rfl, by decide⟩,
    withE (encodingWith [] onlyA), ⟨rfl, rfl⟩, rfl, by decide⟩

theorem witness_IndexMissIsFatalAndUnreachable :
    (∃ s : State, OpenE s ∧ s.e.state = .encoding ∧ s.e.code.codeword 0x42 = none) ∧
      (∃ (i : Instr) (s t : State) (r : Response), exec i s = .next t ∧ t.respE = s.respE ++ [r] ∧ r.st = .fatal) ∧
      ∃ (i : Instr) (s t : State) (r : Response), BlockInv s ∧ exec i s = .next t ∧ t.respE = s.respE ++ [r] :=
  ⟨⟨withE (encodingWith [] onlyA), ⟨rfl, rfl⟩, rfl, by decide⟩,
    ⟨.eput 0, withE (encodingWith [] CodeIndex.absent), _, Response.ofCause .indexMiss,
      (exec_eput _ _).trans (runE_miss rfl (by decide)), rfl, rfl⟩,
    .eend, withE holdingOne,
    (withE holdingOne).respondE ⟨.ok, 0, []⟩, ⟨.ok, 0, []⟩, blockInv_holdingOne, rfl, rfl⟩

theorem witness_EendEmitsWhenAligned :
    (∃ s : State, OpenE s ∧ s.e.out.length % 8 = 0) ∧ (∃ s : State, OpenE s ∧ s.e.out.length = 8 ∧ s.e.out.length % 8 = 0) ∧
      (∃ s : State, OpenE s ∧ s.e.out.length = 7 ∧ s.e.out.length % 8 ≠ 0) ∧ ∃ s : State, OpenE s ∧ s.e.out.length = 9 ∧ s.e.out.length % 8 ≠ 0 :=
  ⟨⟨State.reset, ⟨rfl, rfl⟩, rfl⟩, ⟨withE (encodingWith (bits8 0xF0) onlyA), ⟨rfl, rfl⟩, rfl, rfl⟩,
    ⟨withE (encodingWith (zeros 7) onlyA), ⟨rfl, rfl⟩, rfl, by decide⟩,
    withE (encodingWith (zeros 9) onlyA), ⟨rfl, rfl⟩, rfl, by decide⟩

theorem witness_EflushEmitsTheRestAndCloses :
    (∃ s : State, OpenE s ∧ s.e.state = .collecting) ∧ ∃ s : State, OpenE s ∧ s.e.state = .encoding :=
  ⟨⟨withE holdingOne, ⟨rfl, rfl⟩, rfl⟩, withE (encodingWith [true] onlyA), ⟨rfl, rfl⟩, rfl⟩

/-- In each state of unit E, and flushed. In `Encoding` a codeword of one bit is at hand (T20). -/
theorem witness_EncoderBufferBounds :
    (∃ s t : State, BlockInv s ∧ exec (.eput 0x41) s = .next t ∧ OpenE s ∧ s.e.state = .collecting) ∧
      (∃ s t : State, BlockInv s ∧ exec (.eput 0x41) s = .next t ∧ OpenE s ∧ s.e.state = .encoding) ∧
      ∃ s : State, BlockInv s ∧ s.e.flushed = true := by
  refine ⟨⟨withE holdingOne, _, blockInv_holdingOne,
      (exec_eput _ _).trans (runE_ok (u := holdingOne.collect 0x41) (data := []) rfl rfl), ⟨rfl, rfl⟩, rfl⟩,
    ⟨withE (frozen tableA), _, blockInv_frozen tableA false,
      (exec_eput _ _).trans (runE_ok (u := { frozen tableA with out := bits [1] }) (data := []) rfl ?_), ⟨rfl, rfl⟩, rfl⟩,
    _, blockInv_frozen tableA true, rfl⟩
  have h : (frozen tableA).code.codeword 0x41 = some (bits [1]) := test_tree_of_T20.2.2.2.1
  show ((frozen tableA).encodeByte 0x41).map _ = _
  rw [UnitE.encodeByte, h]
  rfl

theorem witness_HaltedEncoderRefusesEverything :
    (∃ s : State, Instr.eend.unit = .e ∧ s.e.fatal = true) ∧
      (∃ (i : Instr) (s t : State) (r : Response), i.unit ≠ .e ∧ exec i s = .next t ∧ t.respB = s.respB ++ [r]) ∧
      ∃ (i : Instr) (s t : State) (r : Response), i.unit ≠ .e ∧ exec i s = .next t ∧ t.respD = s.respD ++ [r] :=
  ⟨⟨withE { UnitE.reset with fatal := true }, rfl, rfl⟩,
    ⟨.blen .bb0, State.reset, _, _, by decide, exec_blen _ _, rfl⟩,
    .dput 0, State.reset, _, _, by decide, (exec_dput _ _).trans (runD_ok rfl rfl), rfl⟩

theorem witness_FlushedUnitRefusesEverything :
    (∃ s : State, Instr.eflush.unit = .e ∧ s.e.fatal = false ∧ s.e.flushed = true) ∧
      ∃ s : State, Instr.dflush.unit = .d ∧ s.d.flushed = true :=
  ⟨⟨withE { UnitE.reset with flushed := true }, rfl, rfl, rfl⟩, withD { UnitD.reset with flushed := true }, rfl, rfl⟩

theorem witness_CausesFollowTheirPriority :
    (∃ why, decode 0x2101 = .error why ∧ unitField 0x2101 = 2) ∧ (∃ why, decode 0x3300 = .error why ∧ unitField 0x3300 = 3) ∧
      (∃ s : State, Instr.eend.unit = .e ∧ s.e.fatal = true ∧ s.e.flushed = true) ∧
      ∃ s : State, s.e.fatal = false ∧ s.e.flushed = true ∧ s.e.code.codeword 0x42 = none :=
  ⟨⟨_, rfl, rfl⟩, ⟨_, rfl, rfl⟩, ⟨withE { UnitE.reset with fatal := true, flushed := true }, rfl, rfl, rfl⟩,
    withE { encodingWith [] onlyA with flushed := true }, rfl, rfl, by decide⟩

theorem witness_DputBuffersAByte : State.reset.d.flushed = false ∧ (withD (headerRead tableA [])).d.flushed = false := ⟨rfl, rfl⟩

/-- One bit short of the header, the header complete, bits beyond it, and `Decoding`. -/
theorem witness_DendParsesTheHeaderThenWalks :
    (∃ s : State, s.d.flushed = false ∧ s.d.state = .awaitingHeader ∧ s.d.inp.length = 16383 ∧ s.d.inp.length < 16384) ∧
      (∃ s : State, s.d.flushed = false ∧ s.d.state = .awaitingHeader ∧ s.d.inp.length = 16384 ∧ 16384 ≤ s.d.inp.length) ∧
      (∃ s : State, s.d.flushed = false ∧ s.d.state = .awaitingHeader ∧ s.d.inp.length = 16392 ∧ 16384 ≤ s.d.inp.length) ∧
      ∃ (s : State) (store : NodeStore), s.d.flushed = false ∧ s.d.state = .decoding ∧ s.d.node = some store :=
  have len (n : Nat) : (withD { UnitD.reset with inp := zeros n }).d.inp.length = n := List.length_replicate
  ⟨⟨withD { UnitD.reset with inp := zeros 16383 }, rfl, rfl, len _, by rw [len]; decide⟩,
    ⟨withD { UnitD.reset with inp := zeros 16384 }, rfl, rfl, len _, by rw [len]⟩,
    ⟨withD { UnitD.reset with inp := zeros 16392 }, rfl, rfl, len _, by rw [len]; decide⟩,
    withD (headerRead tableA [true]), _, rfl, rfl, rfl⟩

theorem witness_DflushIsDendThenClosed :
    (State.reset.d.flushed = false ∧ (State.reset.d.state = .decoding → State.reset.d.node ≠ none)) ∧
      ∃ s : State, s.d.flushed = false ∧ s.d.state = .decoding ∧ (s.d.state = .decoding → s.d.node ≠ none) :=
  ⟨⟨rfl, fun h => by cases h⟩, withD (headerRead tableA [true]), rfl, rfl, fun _ h => by cases h⟩

theorem witness_WalkWithoutATreeStops :
    (∃ s : State, s.d.flushed = false ∧ s.d.state = .decoding ∧ s.d.node = none ∧ s.d.inp ≠ []) ∧
      ∃ s : State, s.d.flushed = false ∧ s.d.state = .decoding ∧ s.d.node = none ∧ s.d.inp = [] :=
  ⟨⟨withD { UnitD.reset with state := .decoding, inp := [true] }, rfl, rfl, rfl, by decide⟩,
    withD { UnitD.reset with state := .decoding }, rfl, rfl, rfl, rfl⟩

theorem exists_code_of_all (index : CodeIndex) (all : index.toList.all Option.isSome = true) :
    ∃ code, IsCodeOf index code := by
  refine ⟨fun v => (index.codeword v).getD [], fun v => ?_⟩
  have h : (index.codeword v).isSome = true :=
    List.all_eq_true.1 all _ (Vector.mem_toList_iff.2 (Vector.getElem_mem v.isLt))
  obtain ⟨c, hc⟩ := Option.isSome_iff_exists.1 h
  simp [hc]

/-- A tree in which every byte has a codeword (T20). -/
theorem witness_WalkSplitsTheBits : ∃ code, IsCodeOf (build tableA).2 code :=
  exists_code_of_all _ test_tree_of_T20.2.2.2.2.2.2.2.2.2

theorem witness_ResidualIsAProperPrefix :
    (∃ (s t : State) (r : Response), BlockInv s ∧ s.d.flushed = false ∧ exec .dend s = .next t ∧ t.d.state = .decoding ∧
        t.respD = s.respD ++ [r]) ∧
      ∃ (s t : State) (r : Response), BlockInv s ∧ s.d.flushed = false ∧ exec .dend s = .next t ∧ t.d.state = .awaitingHeader ∧
        t.respD = s.respD ++ [r] :=
  ⟨⟨{ withE (frozen tableA) with d := headerRead tableA [] }, _, _, blockInv_headerRead tableA [], rfl,
      (exec_dend _).trans (runD_ok (u := headerRead tableA []) (data := []) rfl rfl), rfl, rfl⟩,
    withE holdingOne, _, _, blockInv_holdingOne, rfl,
      (exec_dend _).trans (runD_ok (u := UnitD.reset) (data := []) rfl rfl), rfl, rfl⟩

/-- One command of each pair of units, one after the other. -/
theorem witness_UnitsCommute :
    (∃ s t u : State, (Instr.bpushb .bb0 true).unit ≠ Instr.eend.unit ∧ exec (.bpushb .bb0 true) s = .next t ∧ exec .eend t = .next u) ∧
      (∃ s t u, Instr.eend.unit ≠ (Instr.dput 1).unit ∧ exec .eend s = .next t ∧ exec (.dput 1) t = .next u) ∧
      ∃ s t u : State, (Instr.dput 1).unit ≠ (Instr.blen .bb0).unit ∧ exec (.dput 1) s = .next t ∧ exec (.blen .bb0) t = .next u :=
  have eend (s : State) (h : s.e.refusal = none) := (exec_eend s).trans (runE_ok (data := s.e.emit.2) h rfl)
  have dput (s : State) (h : s.d.refusal = none) := (exec_dput 1 s).trans (runD_ok (data := []) h rfl)
  ⟨⟨State.reset, _, _, by decide, exec_bpushb _ _ _, eend _ rfl⟩, ⟨State.reset, _, _, by decide, eend _ rfl, dput _ rfl⟩,
    State.reset, _, _, by decide, dput _ rfl, exec_blen _ _⟩

/-- For each unit, two states that agree on it and on nothing else a command might see. -/
theorem witness_CommandsSeeTheirOwnUnitOnly :
    (∃ s₁ s₂ t₁ : State, exec (.bpopf .bb0) s₁ = .next t₁ ∧ (Instr.bpopf .bb0).unit = .b ∧ s₁.b = s₂.b ∧ s₁.e ≠ s₂.e) ∧
      (∃ s₁ s₂ t₁ : State, exec .eend s₁ = .next t₁ ∧ Instr.eend.unit = .e ∧ s₁.e = s₂.e ∧ s₁.threshold = s₂.threshold ∧ s₁.b ≠ s₂.b) ∧
      ∃ s₁ s₂ t₁ : State, exec .dend s₁ = .next t₁ ∧ Instr.dend.unit = .d ∧ s₁.d = s₂.d ∧ s₁.b ≠ s₂.b :=
  ⟨⟨State.reset, withE holdingOne, _, exec_bpopf _ _, rfl, rfl, fun h => absurd (congrArg UnitE.pend h) (by decide)⟩,
    ⟨State.reset, withB [true] [], _, (exec_eend _).trans (runE_ok (data := []) rfl rfl), rfl, rfl, rfl, by decide⟩,
    State.reset, withB [true] [], _,
    (exec_dend _).trans (runD_ok (u := UnitD.reset) (data := []) rfl rfl), rfl, rfl, by decide⟩

/-- A step with no reset waiting, from a flushed, a halted and an `Encoding` unit E and from a flushed unit D in `Decoding`. -/
theorem witness_OnlyResetGoesBack :
    ∃ s t : State, step s = .next t ∧ (∀ l, s.inbox.head? ≠ some (.resetE l)) ∧ s.inbox.head? ≠ some .resetD ∧
      s.e.flushed = true ∧ s.e.fatal = true ∧ s.e.state = .encoding ∧ s.d.flushed = true ∧ s.d.state = .decoding :=
  ⟨{ withE { encodingWith [] onlyA with flushed := true, fatal := true } with
      d := { headerRead tableA [] with flushed := true }, inbox := [.resetB] },
    _, rfl, fun l => by simp, by simp, rfl, rfl, rfl, rfl, rfl⟩

theorem witness_FrozenTreeNeverChanges :
    ∃ s t : State, step s = .next t ∧ s.e.state = .encoding ∧ (∀ l, s.inbox.head? ≠ some (.resetE l)) ∧
      s.d.state = .decoding ∧ s.inbox.head? ≠ some .resetD :=
  ⟨{ withE (frozen tableA) with d := headerRead tableA [], inbox := [.resetB] }, _, rfl, rfl, fun l => by simp, rfl, by simp⟩

theorem witness_EveryStepKeepsTheInvariant :
    ∃ s t : State, BlockInv s ∧ step s = .next t ∧ s.inbox = [.resetE thresholdZero] :=
  ⟨{ withE (frozen tableA) with inbox := [.resetE thresholdZero] }, _,
    ⟨(blockInv_frozen tableA false).encoder, (blockInv_frozen tableA false).decoder⟩, rfl, rfl⟩

theorem witness_NoStepStops : ∃ s : State, BlockInv s ∧ s.inbox = [.command 0x3200] :=
  ⟨{ withE (frozen tableA) with inbox := [.command 0x3200] },
    ⟨(blockInv_frozen tableA false).encoder, (blockInv_frozen tableA false).decoder⟩, rfl⟩

/-- T38's cutting: the same bytes in one chunk, and in three of which one is empty. -/
theorem witness_ChunkSplitStable :
    ([[0x41, 0x41, 0x42, 0x42, 0x43]] : List ByteSeq).flatten = [[0x41, 0x41, 0x42], [], [0x42, 0x43]].flatten := by decide

theorem witness_DecodingTheStreamGivesTheBytesBack (rs : List Response) :
    ∃ cuts : List ByteSeq, cuts.flatten = dataOf rs := ⟨[dataOf rs], by simp⟩

end Sys2Proof.Tests
end

section
/-! PROOFS. The family of spec/10_state.md: every byte has a codeword, so a freeze always succeeds; the counters of a held byte;
what a command can do to its unit, said once for each unit; and from these the invariants of R33, the frames of R10 and R56,
and what only a reset undoes. -/

namespace Sys2Proof.Proofs

open Sys2Proof Sys2Proof.Machine Sys2Proof.Safety Sys2Proof.Laws

/-! ### Every byte has a codeword -/

/-- Each of the two nodes a merge pops is a child of its record (R119). -/
theorem mergedNode_child {a b x : QueueItem} (hx : x = a ∨ x = b) : ∃ bit, (mergedNode a b).child bit = x.index := by
  rcases children_eq a b with ⟨h, -⟩ | ⟨h, -⟩ <;> rcases hx with rfl | rfl
  · exact ⟨true, by simp [Node.child, mergedNode, h]⟩
  · exact ⟨false, by simp [Node.child, mergedNode, h]⟩
  · exact ⟨false, by simp [Node.child, mergedNode, h]⟩
  · exact ⟨true, by simp [Node.child, mergedNode, h]⟩

/-- A merge keeps every node within reach of the queue: below a popped node, it is now below the new one. -/
theorem merge_keeps_reach {cnt : FreqTable} {store : NodeStore} {n : Nat} {a b x : QueueItem} {q : List QueueItem}
    {j : NodeIdx} {c : BitSeq} (h : QueueAt cnt store (n + 1) (a :: b :: q)) (hx : x ∈ a :: b :: q)
    (hc : descend store x.index c = some j) :
    ∃ y ∈ pqInsert (mergedItem n a b) q, ∃ c, descend store y.index c = some j := by
  by_cases hq : x ∈ q
  · exact ⟨x, (pqInsert_perm _ _).mem_iff.2 (.tail _ hq), c, hc⟩
  · obtain ⟨bit, hbit⟩ : ∃ bit, (mergedNode a b).child bit = x.index := mergedNode_child (by simpa [hq] using hx)
    have hb := h.bound
    have hk : nodeKind (mergedItem n a b).index = .interior ⟨254 - n, by omega⟩ :=
      nodeKind_eq_interior.2 (by simp only [mergedItem]; omega)
    refine ⟨_, (pqInsert_perm _ _).mem_iff.2 (.head _), bit :: c, descend_cons.2 ⟨_, hk, ?_⟩⟩
    simpa only [Fin.getElem_fin, (queueAt_merge h).1, hbit] using hc

/-- What is below a node of the queue before some merge is below the root: the last merge makes node 510 (R118). -/
theorem root_reaches {cnt : FreqTable} {store : NodeStore} {n : Nat} {q : List QueueItem} {x : QueueItem} {j : NodeIdx}
    {c : BitSeq} (h : QueueAt cnt store (n + 1) q) (hx : x ∈ q) (hc : descend store x.index c = some j) :
    ∃ c, descend store rootIdx c = some j := by
  induction n generalizing q x c with
  | zero =>
    obtain ⟨a, b, q', rfl⟩ := queueAt_pops h
    obtain rfl : q' = [] := by simpa using h.length
    obtain ⟨y, hy, c', hc'⟩ := merge_keeps_reach h hx hc
    obtain rfl : y = mergedItem 0 a b := by simpa [pqInsert] using hy
    exact ⟨c', hc'⟩
  | succ n ih =>
    obtain ⟨a, b, q', rfl⟩ := queueAt_pops h
    obtain ⟨y, hy, c', hc'⟩ := merge_keeps_reach h hx hc
    exact ih (queueAt_merge h).2 hy hc'

/-- Every Terminal waits in the seeded queue (R116). -/
theorem exists_mem_pqSeed (cnt : FreqTable) (v : Byte) : ∃ x ∈ pqSeed cnt, x.index.val = v.toNat :=
  List.mem_map.1 ((pqSeed_indexes cnt).mem_iff.2 (List.mem_range.2 v.isLt))

/-- Every Terminal is below the root of a built tree. -/
theorem exists_path_to_terminal (cnt : FreqTable) (v : Byte) :
    ∃ c j, descend (buildNodes cnt) rootIdx c = some j ∧ nodeKind j = .terminal v := by
  obtain ⟨x, hx, hv⟩ := exists_mem_pqSeed cnt v
  obtain ⟨c, hc⟩ := root_reaches (queueAt_start cnt) hx (c := []) rfl
  exact ⟨c, x.index, hc, nodeKind_eq_terminal.2 hv⟩

/-- A child has a smaller index than its parent (R50), since the queue held it before the merge. -/
theorem child_lt_parent (cnt : FreqTable) (k : Fin 255) (bit : Bit) :
    ((buildNodes cnt)[k].child bit).val < 256 + k.val := by
  obtain ⟨a, b, q, hq, hrec⟩ := record_is_merge cnt k
  have ha := hq.index_lt a (by simp)
  have hb := hq.index_lt b (by simp)
  rw [hrec]
  rcases children_eq a b with ⟨h, -⟩ | ⟨h, -⟩ <;> cases bit <;> simp [Node.child, mergedNode, h] <;> omega

/-- The code index of a table gives every byte value a codeword (R120). -/
theorem exists_code (cnt : FreqTable) : ∃ code, IsCodeOf (build cnt).2 code := by
  have each : ∀ v, ∃ c, (build cnt).2.codeword v = some c := fun v => by
    obtain ⟨c, j, hc, hv⟩ := exists_path_to_terminal cnt v
    have hmem := leafPaths_complete (child_lt_parent cnt) (fuel := Config.nnode) [] (by decide) hc hv
    obtain ⟨c', hc', -⟩ := lookup_of_mem hmem
    exact ⟨c', by rw [codeword_build, hc']⟩
  exact ⟨fun v => (each v).choose, fun v => (each v).choose_spec⟩

/-! ### Encoding and the freeze -/

/-- `E_encode` appends the codeword, where there is one (R133). -/
theorem encodeByte_eq_map (u : UnitE) (y : Byte) :
    u.encodeByte y = (u.code.codeword y).map fun c => { u with out := u.out ++ c } := by
  unfold UnitE.encodeByte
  cases u.code.codeword y <;> rfl

/-- With a codeword for every byte, encoding bytes appends their codewords to `e_out` and does nothing else (R133). -/
theorem encodeBytes_of_isCodeOf {u : UnitE} {code : Byte → BitSeq} (h : IsCodeOf u.code code) (ys : ByteSeq) :
    u.encodeBytes ys = some { u with out := u.out ++ ys.flatMap code } := by
  induction ys generalizing u with
  | nil => simp [UnitE.encodeBytes]
  | cons y ys ih =>
    have hy : u.encodeByte y = some { u with out := u.out ++ code y } := by
      simp [encodeByte_eq_map, h y]
    simp only [UnitE.encodeBytes, hy]
    rw [ih (u := { u with out := u.out ++ code y }) h]
    simp

/-- What the freeze does (R132). -/
theorem freeze_of_isCodeOf {u : UnitE} {code : Byte → BitSeq} (h : IsCodeOf (build u.cnt).2 code) :
    u.freeze = some { u.startEncoding with out := u.startEncoding.out ++ u.pend.flatMap code, pend := [] } := by
  unfold UnitE.freeze
  rw [encodeBytes_of_isCodeOf (u := u.startEncoding) h]
  rfl

/-! ### Counting a held byte -/

/-- The counter of one byte enters the total as a summand of its own (R112). -/
theorem ftTotal_set (cnt : FreqTable) (y : Byte) :
    ∃ rest, ∀ c : Count, ftTotal (cnt.set y.toNat c y.isLt) = rest + c.toNat := by
  refine ⟨((cnt.toList.map BitVec.toNat).take y.toNat).sum + ((cnt.toList.map BitVec.toNat).drop (y.toNat + 1)).sum,
    fun c => ?_⟩
  have hy : y.toNat < (cnt.toList.map BitVec.toNat).length := by simpa using y.isLt
  rw [ftTotal, Vector.toList_set, List.map_set, List.sum_set, if_pos hy]
  omega

/-- While the total is below the top of a counter, one more byte adds one to it: no counter wraps (R111, R112). -/
theorem ftTotal_push {cnt : FreqTable} (y : Byte) (h : ftTotal cnt < 2 ^ 64 - 1) :
    ftTotal (ftPush cnt y) = ftTotal cnt + 1 := by
  obtain ⟨rest, hrest⟩ := ftTotal_set cnt y
  have hnow : ftTotal cnt = rest + (cnt.count y).toNat := by
    rw [← hrest, FreqTable.count, Vector.set_getElem_self]
  have hinc : (cnt.count y + 1).toNat = (cnt.count y).toNat + 1 := by
    rw [BitVec.toNat_add]
    exact Nat.mod_eq_of_lt (by simp; omega)
  rw [ftPush, hrest, hinc]
  omega

/-! ### A command answers at its own unit (R10, R56) -/

theorem answersB_respondB (s : State) (u : UnitB) (r : Response) : AnswersB s ({ s with b := u }.respondB r) r :=
  ⟨rfl, rfl, rfl, rfl, rfl, rfl, rfl, rfl⟩

theorem answersE_respondE (s : State) (u : UnitE) (r : Response) : AnswersE s ({ s with e := u }.respondE r) r :=
  ⟨rfl, rfl, rfl, rfl, rfl, rfl, rfl, rfl⟩

theorem answersD_respondD (s : State) (u : UnitD) (r : Response) : AnswersD s ({ s with d := u }.respondD r) r :=
  ⟨rfl, rfl, rfl, rfl, rfl, rfl, rfl, rfl⟩

/-- What a unit B command does is a function of unit B's state. -/
theorem runB_local (body : UnitB → UnitB × Response) (u : UnitB) :
    ∃ u' r, ∀ s, s.b = u → runB body s = .next ({ s with b := u' }.respondB r) :=
  ⟨_, _, fun s hs => by rw [runB_eq, hs]⟩

/-- The prologue of unit E refuses with its cause and changes nothing (R131). -/
theorem runE_refused {body : UnitE → Option (UnitE × ByteSeq)} {s : State} {c : Cause} (h : s.e.refusal = some c) :
    runE body s = .next (s.respondE (Response.ofCause c)) := by
  rcases runE_cases body s with ⟨c', h', hrun⟩ | ⟨h', -, -⟩ | ⟨_, h', -, -⟩ <;> rw [h] at h' <;> cases h'
  exact hrun

/-- The prologue of unit D refuses with its cause and changes nothing (R151). -/
theorem runD_refused {body : UnitD → Except Fault (UnitD × ByteSeq)} {s : State} {c : Cause} (h : s.d.refusal = some c) :
    runD body s = .next (s.respondD (Response.ofCause c)) := by
  rcases runD_cases body s with ⟨h', hrun⟩ | ⟨_, h', -, -⟩ | ⟨_, h', -, -⟩ <;> rw [h] at h' <;> cases h'
  exact hrun

theorem runD_fault {body : UnitD → Except Fault (UnitD × ByteSeq)} {s : State} {f : Fault}
    (h : s.d.refusal = none) (hb : body s.d = .error f) : runD body s = .fault f := by
  simp [runD, h, hb]

/-- What a unit E command does is a function of unit E's state, once its body is fixed. -/
theorem runE_local (body : UnitE → Option (UnitE × ByteSeq)) (u : UnitE) :
    ∃ u' r, ∀ s, s.e = u → runE body s = .next ({ s with e := u' }.respondE r) := by
  cases href : u.refusal with
  | some c => exact ⟨u, _, fun s hs => by subst hs; exact runE_refused href⟩
  | none =>
    cases hb : body u with
    | none => exact ⟨u.setFatal, _, fun s hs => by subst hs; exact runE_miss href hb⟩
    | some p => exact ⟨p.1, _, fun s hs => by subst hs; exact runE_ok href hb⟩

/-- What a unit D command does is a function of unit D's state, and so is whether it stops. -/
theorem runD_local (body : UnitD → Except Fault (UnitD × ByteSeq)) (u : UnitD) :
    (∃ f, ∀ s, s.d = u → runD body s = .fault f) ∨
      ∃ u' r, ∀ s, s.d = u → runD body s = .next ({ s with d := u' }.respondD r) := by
  cases href : u.refusal with
  | some c => exact .inr ⟨u, _, fun s hs => by subst hs; exact runD_refused href⟩
  | none =>
    cases hb : body u with
    | error f => exact .inl ⟨f, fun s hs => by subst hs; exact runD_fault href hb⟩
    | ok p => exact .inr ⟨p.1, _, fun s hs => by subst hs; exact runD_ok href hb⟩

/-- A unit B command does the same to unit B, and answers the same, in every state with the same unit B. -/
theorem exec_localB {i : Instr} {s₁ s₂ t₁ : State} (h : exec i s₁ = .next t₁) (hu : i.unit = .b) (heq : s₁.b = s₂.b) :
    ∃ t₂ r, exec i s₂ = .next t₂ ∧ t₂.b = t₁.b ∧ AnswersB s₁ t₁ r ∧ AnswersB s₂ t₂ r := by
  obtain ⟨body, hbody⟩ := exec_unitB hu
  obtain ⟨u', r, hrun⟩ := runB_local body s₁.b
  rw [hbody, hrun s₁ rfl] at h
  cases h
  exact ⟨_, r, (hbody s₂).trans (hrun s₂ heq.symm), rfl, answersB_respondB s₁ u' r, answersB_respondB s₂ u' r⟩

/-- A unit E command does the same to unit E, and answers the same, in every state with the same unit E and `THRESHOLD`. -/
theorem exec_localE {i : Instr} {s₁ s₂ t₁ : State} (h : exec i s₁ = .next t₁) (hu : i.unit = .e) (heq : s₁.e = s₂.e)
    (ht : s₁.threshold = s₂.threshold) :
    ∃ t₂ r, exec i s₂ = .next t₂ ∧ t₂.e = t₁.e ∧ AnswersE s₁ t₁ r ∧ AnswersE s₂ t₂ r := by
  obtain ⟨body, hbody⟩ := exec_unitE hu
  obtain ⟨u', r, hrun⟩ := runE_local (body s₁.threshold) s₁.e
  rw [hbody, hrun s₁ rfl] at h
  cases h
  have hrun₂ : exec i s₂ = .next ({ s₂ with e := u' }.respondE r) := by
    rw [hbody, ← hrun s₂ heq.symm, ht]
  exact ⟨_, r, hrun₂, rfl, answersE_respondE s₁ u' r, answersE_respondE s₂ u' r⟩

/-- A unit D command does the same to unit D, and answers the same, in every state with the same unit D. -/
theorem exec_localD {i : Instr} {s₁ s₂ t₁ : State} (h : exec i s₁ = .next t₁) (hu : i.unit = .d) (heq : s₁.d = s₂.d) :
    ∃ t₂ r, exec i s₂ = .next t₂ ∧ t₂.d = t₁.d ∧ AnswersD s₁ t₁ r ∧ AnswersD s₂ t₂ r := by
  obtain ⟨body, hbody⟩ := exec_unitD hu
  rcases runD_local body s₁.d with ⟨f, hrun⟩ | ⟨u', r, hrun⟩
  · rw [hbody, hrun s₁ rfl] at h
    cases h
  · rw [hbody, hrun s₁ rfl] at h
    cases h
    exact ⟨_, r, (hbody s₂).trans (hrun s₂ heq.symm), rfl, answersD_respondD s₁ u' r, answersD_respondD s₂ u' r⟩

/-- Settles O48: each shared operation reads its own unit's state, and `THRESHOLD` enters a unit E command's body only. -/
theorem commandsSeeTheirOwnUnitOnly : Obligations.CommandsSeeTheirOwnUnitOnly :=
  fun _ _ _ _ h => ⟨exec_localB h, exec_localE h, exec_localD h⟩

/-- A command that gives a next state answers at its own unit and leaves all else alone. -/
theorem exec_answers {i : Instr} {s t : State} (h : exec i s = .next t) :
    ∃ r, (i.unit = .b ∧ AnswersB s t r) ∨ (i.unit = .e ∧ AnswersE s t r) ∨ (i.unit = .d ∧ AnswersD s t r) := by
  cases hu : i.unit with
  | b =>
    obtain ⟨-, r, -, -, ha, -⟩ := exec_localB h hu rfl
    exact ⟨r, .inl ⟨rfl, ha⟩⟩
  | e =>
    obtain ⟨-, r, -, -, ha, -⟩ := exec_localE h hu rfl rfl
    exact ⟨r, .inr (.inl ⟨rfl, ha⟩)⟩
  | d =>
    obtain ⟨-, r, -, -, ha, -⟩ := exec_localD h hu rfl
    exact ⟨r, .inr (.inr ⟨rfl, ha⟩)⟩

/-- No command changes `THRESHOLD` or the inputs that wait. -/
theorem exec_threshold_inbox {i : Instr} {s t : State} (h : exec i s = .next t) :
    t.threshold = s.threshold ∧ t.inbox = s.inbox := by
  obtain ⟨r, ⟨-, -, ho⟩ | ⟨-, -, ho⟩ | ⟨-, -, ho⟩⟩ := exec_answers h <;> exact ⟨ho.threshold, ho.inbox⟩

/-! ### What a command can do to unit E -/

/-- All that one command can do to unit E in state `u`, with `THRESHOLD` at `l` (R131 to R136, R174): nothing; the roll-back of
an index miss; a byte held; `e_out` emptied; in `Encoding` the bits and the flag of an open session changed; or the freeze of a
table, with or without the flush. -/
inductive EncoderEffect (l : Config.Threshold) (u : UnitE) : UnitE → Prop
  | keep : EncoderEffect l u u
  | miss (y : Byte) (hs : u.state = .encoding) (hc : u.code.codeword y = none) : EncoderEffect l u u.setFatal
  | hold (y : Byte) (hs : u.state = .collecting) (hf : u.flushed = false) (hl : (u.collect y).pend.length ≤ l.val) :
      EncoderEffect l u (u.collect y)
  | drain : EncoderEffect l u { u with out := [] }
  | write (q : BitSeq) (f : Bool) (hs : u.state = .encoding) (hf : u.flushed = false) (hq : f = true → q = []) :
      EncoderEffect l u { u with out := q, flushed := f }
  | freeze (cnt : FreqTable) (q : BitSeq) (f : Bool) (hs : u.state = .collecting) (hf : u.flushed = false)
      (hq : f = true → q = []) :
      EncoderEffect l u { u with
        state := .encoding, flushed := f, cnt := cnt, pend := [], out := q, node := some (build cnt).1,
        code := (build cnt).2 }

/-- `EPUT` (R134), the roll-back included. -/
theorem put_effect {l : Config.Threshold} {u : UnitE} (hf : u.flushed = false) (y : Byte) :
    EncoderEffect l u ((u.put l y).getD u.setFatal) := by
  cases hs : u.state with
  | collecting =>
    by_cases hl : l.val < (u.collect y).pend.length
    · obtain ⟨code, hc⟩ := exists_code (u.collect y).cnt
      simp only [UnitE.put, hs, if_pos hl, freeze_of_isCodeOf hc]
      exact .freeze _ _ u.flushed hs hf (by simp [hf])
    · simp only [UnitE.put, hs, if_neg hl]
      exact .hold y hs hf (Nat.le_of_not_lt hl)
  | encoding =>
    have hput : u.put l y = u.encodeByte y := by simp only [UnitE.put, hs]
    rw [hput, encodeByte_eq_map]
    cases hc : u.code.codeword y with
    | none => exact .miss y hs hc
    | some c => exact .write _ u.flushed hs hf (by simp [hf])

/-- `EEND` (R135). -/
theorem emit_effect (l : Config.Threshold) (u : UnitE) : EncoderEffect l u u.emit.1 := by
  unfold UnitE.emit
  split
  · exact .drain
  · exact .keep

/-- `EFLUSH` (R136) never meets an index miss. -/
theorem flush_effect (l : Config.Threshold) {u : UnitE} (hf : u.flushed = false) :
    ∃ r, u.flush = some r ∧ EncoderEffect l u r.1 := by
  cases hs : u.state with
  | collecting =>
    obtain ⟨code, hc⟩ := exists_code u.cnt
    simp only [UnitE.flush, hs, freeze_of_isCodeOf hc]
    exact ⟨_, rfl, .freeze u.cnt [] true hs hf fun _ => rfl⟩
  | encoding =>
    simp only [UnitE.flush, hs]
    exact ⟨_, rfl, .write [] true hs hf fun _ => rfl⟩

/-- A unit E command has one of these effects if its body, rolled back on an index miss, has one in an open session. -/
theorem runE_effect {l : Config.Threshold} {body : UnitE → Option (UnitE × ByteSeq)} {s t : State}
    (hbody : s.e.flushed = false → EncoderEffect l s.e (((body s.e).map Prod.fst).getD s.e.setFatal))
    (h : runE body s = .next t) : EncoderEffect l s.e t.e := by
  rcases runE_cases body s with ⟨c, -, hrun⟩ | ⟨href, hb, hrun⟩ | ⟨r, href, hb, hrun⟩ <;> rw [hrun] at h <;> cases h
  · exact .keep
  · simpa [hb] using hbody (encoder_refusal_eq_none.1 href).2
  · simpa [hb] using hbody (encoder_refusal_eq_none.1 href).2

/-- Every command has one of these effects on unit E; one for another unit leaves it as it is. -/
theorem exec_encoderEffect {i : Instr} {s t : State} (h : exec i s = .next t) :
    EncoderEffect s.threshold s.e t.e := by
  obtain ⟨r, ⟨-, -, ho⟩ | ⟨hu, -⟩ | ⟨-, -, ho⟩⟩ := exec_answers h
  · rw [ho.e]; exact .keep
  · cases i with
    | eput y =>
      rw [exec_eput] at h
      refine runE_effect (fun hf => ?_) h
      simpa [Function.comp_def] using put_effect hf y
    | eend =>
      rw [exec_eend] at h
      exact runE_effect (fun _ => emit_effect _ _) h
    | eflush =>
      rw [exec_eflush] at h
      refine runE_effect (fun hf => ?_) h
      obtain ⟨r, hr, heff⟩ := flush_effect s.threshold hf
      simpa [hr] using heff
    | _ => cases hu
  · rw [ho.e]; exact .keep

/-! ### What a command can do to unit D -/

/-- All that one command can do to unit D in state `u` (R151 to R156): nothing; the bits and the flag of an open session changed;
or the header step with the tree of its table. -/
inductive DecoderEffect (u : UnitD) : UnitD → Prop
  | keep : DecoderEffect u u
  | buffer (q : BitSeq) (f : Bool) (hf : u.flushed = false) : DecoderEffect u { u with inp := q, flushed := f }
  | header (cnt : FreqTable) (q : BitSeq) (f : Bool) (hs : u.state = .awaitingHeader) (hf : u.flushed = false) :
      DecoderEffect u { u with
        state := .decoding, flushed := f, inp := q, cnt := some cnt, node := some (build cnt).1 }

/-- The walk changes `d_in` only (R154). -/
theorem walk_eq_ok {u : UnitD} {r : UnitD × ByteSeq} (h : u.walk = .ok r) : ∃ q, r.1 = { u with inp := q } := by
  unfold UnitD.walk at h
  split at h
  · cases h; exact ⟨u.inp, rfl⟩
  · cases h
  · cases h; exact ⟨_, rfl⟩

/-- The walk stops only where it would read an absent node store (log entry 4). -/
theorem walk_completes {u : UnitD} (h : u.node ≠ none) : ∃ r, u.walk = .ok r := by
  unfold UnitD.walk
  split
  · exact ⟨_, rfl⟩
  · next hn => exact absurd hn h
  · exact ⟨_, rfl⟩

/-- `DEND` (R155), and `DFLUSH` (R156), which sets the flag `f` on top. -/
theorem endChunk_effect {u : UnitD} {r : UnitD × ByteSeq} (hf : u.flushed = false) (h : u.endChunk = .ok r) (f : Bool) :
    DecoderEffect u { r.1 with flushed := f } := by
  unfold UnitD.endChunk at h
  cases hs : u.state with
  | awaitingHeader =>
    simp only [hs] at h
    split at h
    · cases h; exact .buffer u.inp f hf
    · obtain ⟨q, hq⟩ := walk_eq_ok h
      rw [hq]
      exact .header _ q f hs hf
  | decoding =>
    simp only [hs] at h
    obtain ⟨q, hq⟩ := walk_eq_ok h
    rw [hq]
    exact .buffer q f hf

/-- Unless a tree is missing in `Decoding`, `DEND` completes. -/
theorem endChunk_completes {u : UnitD} (h : u.state = .decoding → u.node ≠ none) : ∃ r, u.endChunk = .ok r := by
  unfold UnitD.endChunk
  split
  · split
    · exact ⟨_, rfl⟩
    · exact walk_completes (by simp [UnitD.header])
  · next hs => exact walk_completes (h hs)

/-- `DFLUSH` completes as `DEND` does, with the flag set on top (R156). -/
theorem decoder_flush_eq_ok {u : UnitD} {r : UnitD × ByteSeq} (h : u.flush = .ok r) :
    ∃ r', u.endChunk = .ok r' ∧ (r'.1.setFlushed, r'.2) = r := by
  unfold UnitD.flush at h
  cases hend : u.endChunk with
  | error f => simp [hend, Except.map] at h
  | ok r' =>
    rw [hend] at h
    exact ⟨r', rfl, Except.ok.inj h⟩

/-- A unit D command has one of these effects if its body has one in an open session. -/
theorem runD_effect {body : UnitD → Except Fault (UnitD × ByteSeq)} {s t : State}
    (hbody : ∀ r, s.d.flushed = false → body s.d = .ok r → DecoderEffect s.d r.1)
    (h : runD body s = .next t) : DecoderEffect s.d t.d := by
  rcases runD_cases body s with ⟨-, hrun⟩ | ⟨f, -, -, hrun⟩ | ⟨r, href, hb, hrun⟩ <;> rw [hrun] at h <;> cases h
  · exact .keep
  · exact hbody r (decoder_refusal_eq_none.1 href) hb

/-- Every command has one of these effects on unit D; one for another unit leaves it as it is. -/
theorem exec_decoderEffect {i : Instr} {s t : State} (h : exec i s = .next t) : DecoderEffect s.d t.d := by
  obtain ⟨r, ⟨-, -, ho⟩ | ⟨-, -, ho⟩ | ⟨hu, -⟩⟩ := exec_answers h
  · rw [ho.d]; exact .keep
  · rw [ho.d]; exact .keep
  · cases i with
    | dput y =>
      rw [exec_dput] at h
      refine runD_effect (fun r hf hr => ?_) h
      cases hr
      exact .buffer _ s.d.flushed hf
    | dend =>
      rw [exec_dend] at h
      exact runD_effect (fun r hf hr => endChunk_effect hf hr r.1.flushed) h
    | dflush =>
      rw [exec_dflush] at h
      refine runD_effect (fun r hf hr => ?_) h
      obtain ⟨r', hr', rfl⟩ := decoder_flush_eq_ok hr
      exact endChunk_effect hf hr' true
    | _ => cases hu

/-! ### What a step can do -/

section
variable (who : Option UnitId) (r : Response) (s : State)

@[simp] theorem respond_e : (s.respond who r).e = s.e := by rcases who with _ | ⟨⟨⟩⟩ <;> rfl
@[simp] theorem respond_d : (s.respond who r).d = s.d := by rcases who with _ | ⟨⟨⟩⟩ <;> rfl
@[simp] theorem respond_threshold : (s.respond who r).threshold = s.threshold := by rcases who with _ | ⟨⟨⟩⟩ <;> rfl
@[simp] theorem respond_inbox : (s.respond who r).inbox = s.inbox := by rcases who with _ | ⟨⟨⟩⟩ <;> rfl

end

/-- What accepting a command word, legal or not, can do to units E and D; `THRESHOLD` and the waiting inputs stay. -/
theorem accept_effect {cw : CmdWord} {s t : State} (h : accept cw s = .next t) :
    EncoderEffect s.threshold s.e t.e ∧ DecoderEffect s.d t.d ∧ t.threshold = s.threshold ∧ t.inbox = s.inbox := by
  unfold accept at h
  split at h
  · exact ⟨exec_encoderEffect h, exec_decoderEffect h, exec_threshold_inbox h⟩
  · rw [raise_refusal (by simp)] at h
    cases h
    simp only [respond_e, respond_d, respond_threshold, respond_inbox, and_true]
    exact ⟨.keep, .keep⟩

/-- What a step can do to unit E and `THRESHOLD`: the reset, or a command's effect at the same level. -/
theorem step_encoder {s t : State} (h : step s = .next t) :
    ((∃ l, s.inbox.head? = some (.resetE l)) ∧ t.e = UnitE.reset) ∨
      (EncoderEffect s.threshold s.e t.e ∧ t.threshold = s.threshold) := by
  rcases step_cases s with ⟨-, hs⟩ | ⟨cw, rest, -, hs⟩ | ⟨rest, -, hs⟩ | ⟨l, rest, hi, hs⟩ | ⟨rest, -, hs⟩ <;>
    rw [hs] at h
  case inr.inl =>
    obtain ⟨heff, -, ht, -⟩ := accept_effect h
    exact .inr ⟨heff, ht⟩
  all_goals cases h
  case inr.inr.inr.inl => exact .inl ⟨⟨l, by simp [hi]⟩, rfl⟩
  all_goals exact .inr ⟨.keep, rfl⟩

/-- What a step can do to unit D: the reset, or a command's effect. -/
theorem step_decoder {s t : State} (h : step s = .next t) :
    (s.inbox.head? = some .resetD ∧ t.d = UnitD.reset) ∨ DecoderEffect s.d t.d := by
  rcases step_cases s with ⟨-, hs⟩ | ⟨cw, rest, -, hs⟩ | ⟨rest, -, hs⟩ | ⟨l, rest, -, hs⟩ | ⟨rest, hi, hs⟩ <;>
    rw [hs] at h
  case inr.inl => exact .inr (accept_effect h).2.1
  all_goals cases h
  case inr.inr.inr.inr => exact .inl ⟨by simp [hi], rfl⟩
  all_goals exact .inr .keep

/-- A step takes the oldest waiting input and no other (R55). -/
theorem step_inbox {s t : State} (h : step s = .next t) : t.inbox = s.inbox.tail := by
  rcases step_cases s with ⟨hi, hs⟩ | ⟨cw, rest, hi, hs⟩ | ⟨rest, hi, hs⟩ | ⟨l, rest, hi, hs⟩ | ⟨rest, hi, hs⟩ <;>
    rw [hs] at h
  case inr.inl =>
    obtain ⟨-, -, -, ht⟩ := accept_effect h
    simp [ht, hi]
  all_goals cases h; simp [hi]

/-! ### Only a reset goes back -/

/-- No effect of a command clears a flag of unit E or leads back to `Collecting` (R13, R14, R15). -/
theorem encoderEffect_sticky {l : Config.Threshold} {u u' : UnitE} (h : EncoderEffect l u u') :
    (u.flushed = true → u'.flushed = true) ∧ (u.fatal = true → u'.fatal = true) ∧
      (u.state = .encoding → u'.state = .encoding) := by
  cases h with
  | keep | hold | drain => exact ⟨id, id, id⟩
  | miss => exact ⟨id, fun _ => rfl, id⟩
  | write q f hs hf => exact ⟨by simp [hf], id, id⟩
  | freeze cnt q f hs hf => exact ⟨by simp [hf], id, fun _ => rfl⟩

/-- No effect of a command clears `d_flushed` or leads back to `AwaitingHeader` (R22, R23). -/
theorem decoderEffect_sticky {u u' : UnitD} (h : DecoderEffect u u') :
    (u.flushed = true → u'.flushed = true) ∧ (u.state = .decoding → u'.state = .decoding) := by
  cases h with
  | keep => exact ⟨id, id⟩
  | buffer q f hf => exact ⟨by simp [hf], id⟩
  | header cnt q f hs hf => exact ⟨by simp [hf], fun _ => rfl⟩

/-- In `Encoding` no effect of a command writes the table, the tree or the code index (R16, R19, R20). -/
theorem encoderEffect_frozen {l : Config.Threshold} {u u' : UnitE} (h : EncoderEffect l u u') (hs : u.state = .encoding) :
    u'.cnt = u.cnt ∧ u'.node = u.node ∧ u'.code = u.code := by
  cases h with
  | keep | miss | drain | write => exact ⟨rfl, rfl, rfl⟩
  | hold y hs' | freeze cnt q f hs' => simp [hs] at hs'

/-- In `Decoding` no effect of a command writes the table or the tree (R25, R26). -/
theorem decoderEffect_frozen {u u' : UnitD} (h : DecoderEffect u u') (hs : u.state = .decoding) :
    u'.cnt = u.cnt ∧ u'.node = u.node := by
  cases h with
  | keep | buffer => exact ⟨rfl, rfl⟩
  | header cnt q f hs' => simp [hs] at hs'

/-- A step that takes no reset of unit E has a command's effect on it. -/
theorem step_encoder_of_no_reset {s t : State} (h : step s = .next t) (hno : ∀ l, s.inbox.head? ≠ some (.resetE l)) :
    EncoderEffect s.threshold s.e t.e ∧ t.threshold = s.threshold := by
  rcases step_encoder h with ⟨⟨l, hl⟩, -⟩ | heff
  · exact absurd hl (hno l)
  · exact heff

/-- A step that takes no reset of unit D has a command's effect on it. -/
theorem step_decoder_of_no_reset {s t : State} (h : step s = .next t) (hno : s.inbox.head? ≠ some .resetD) :
    DecoderEffect s.d t.d := by
  rcases step_decoder h with ⟨hd, -⟩ | heff
  · exact absurd hd hno
  · exact heff

/-- Settles O49: no effect of a command clears a flag or leaves `Encoding` or `Decoding`. -/
theorem onlyResetGoesBack : Obligations.OnlyResetGoesBack := by
  intro s t h
  constructor
  · intro hno
    obtain ⟨heff, ht⟩ := step_encoder_of_no_reset h hno
    obtain ⟨hflushed, hfatal, hstate⟩ := encoderEffect_sticky heff
    exact ⟨hflushed, hfatal, hstate, ht⟩
  · intro hno
    exact decoderEffect_sticky (step_decoder_of_no_reset h hno)

/-- Settles O50: the effects that write a table, tree or code index start in the first state of their unit. -/
theorem frozenTreeNeverChanges : Obligations.FrozenTreeNeverChanges := by
  intro s t h
  constructor
  · intro hs hno
    exact encoderEffect_frozen (step_encoder_of_no_reset h hno).1 hs
  · intro hs hno
    exact decoderEffect_frozen (step_decoder_of_no_reset h hno) hs

/-! ### The invariants of R33 -/

theorem ftTotal_empty : ftTotal FreqTable.empty = 0 := by
  rw [ftTotal, FreqTable.empty, Vector.toList_replicate, List.map_replicate, List.sum_replicate]
  rfl

theorem encoderInv_reset (l : Config.Threshold) : EncoderInv l UnitE.reset where
  collecting _ := ⟨rfl, rfl, rfl, ftTotal_empty.symm, Nat.zero_le _⟩
  encoding h := by cases h
  fatal := rfl
  flushed h := by cases h

theorem decoderInv_reset : DecoderInv UnitD.reset where
  awaiting _ := ⟨rfl, rfl⟩
  decoding h := by cases h

/-- Settles O51, unit by unit. -/
theorem invariantHoldsAtReset : Obligations.InvariantHoldsAtReset :=
  ⟨encoderInv_reset _, decoderInv_reset⟩

/-- In an invariant state no byte lacks its codeword, so an index miss cannot happen (R174). -/
theorem codeword_of_encoderInv {l : Config.Threshold} {u : UnitE} (h : EncoderInv l u) (hs : u.state = .encoding)
    (y : Byte) : u.code.codeword y ≠ none := by
  obtain ⟨-, -, hcode⟩ := h.encoding hs
  obtain ⟨code, hc⟩ := exists_code u.cnt
  simp [hcode, hc y]

/-- A byte held below the threshold is counted in full, since no counter is at its top. -/
theorem encoderInv_collect {l : Config.Threshold} {u : UnitE} {y : Byte} (h : EncoderInv l u) (hs : u.state = .collecting)
    (hf : u.flushed = false) (hl : (u.collect y).pend.length ≤ l.val) : EncoderInv l (u.collect y) := by
  obtain ⟨hout, hnode, hcode, hpend, hle⟩ := h.collecting hs
  have htotal : ftTotal u.cnt < 2 ^ 64 - 1 := by
    have := l.isLt
    omega
  constructor
  · intro _
    refine ⟨hout, hnode, hcode, ?_, hl⟩
    simp [ftTotal_push y htotal, hpend]
  · simp [hs]
  · exact h.fatal
  · simp [hf]

theorem encoderInv_of_effect {l : Config.Threshold} {u u' : UnitE} (h : EncoderInv l u) (heff : EncoderEffect l u u') :
    EncoderInv l u' := by
  cases heff with
  | keep => exact h
  | miss y hs hc => exact absurd hc (codeword_of_encoderInv h hs y)
  | hold y hs hf hl => exact encoderInv_collect h hs hf hl
  | drain =>
    constructor
    · intro hs
      obtain ⟨-, hrest⟩ := h.collecting hs
      exact ⟨rfl, hrest⟩
    · exact h.encoding
    · exact h.fatal
    · exact fun hf => ⟨(h.flushed hf).1, rfl⟩
  | write q f hs hf hq =>
    constructor
    · simp [hs]
    · exact h.encoding
    · exact h.fatal
    · exact fun hf' => ⟨hs, hq hf'⟩
  | freeze cnt q f hs hf hq =>
    constructor
    · simp
    · exact fun _ => ⟨rfl, rfl, rfl⟩
    · exact h.fatal
    · exact fun hf' => ⟨rfl, hq hf'⟩

theorem decoderInv_of_effect {u u' : UnitD} (h : DecoderInv u) (heff : DecoderEffect u u') : DecoderInv u' := by
  cases heff with
  | keep => exact h
  | buffer q f hf => exact ⟨h.awaiting, h.decoding⟩
  | header cnt q f hs hf => exact ⟨by simp, fun _ => ⟨cnt, rfl, rfl⟩⟩

/-- Settles O52, effect by effect: the index miss is excluded, since every byte has a codeword, and a held byte adds one to the
total, since no counter is at its top. -/
theorem everyStepKeepsTheInvariant : Obligations.EveryStepKeepsTheInvariant := by
  intro s t hinv h
  constructor
  · rcases step_encoder h with ⟨-, he⟩ | ⟨heff, ht⟩
    · rw [he]; exact encoderInv_reset _
    · rw [ht]; exact encoderInv_of_effect hinv.encoder heff
  · rcases step_decoder h with ⟨-, hd⟩ | heff
    · rw [hd]; exact decoderInv_reset
    · exact decoderInv_of_effect hinv.decoder heff

/-! ### Runs from reset -/

theorem node_of_decoderInv {u : UnitD} (h : DecoderInv u) (hs : u.state = .decoding) : u.node ≠ none := by
  obtain ⟨cnt, -, hn⟩ := h.decoding hs
  simp [hn]

theorem runD_completes {body : UnitD → Except Fault (UnitD × ByteSeq)} {s : State} (h : ∃ r, body s.d = .ok r) :
    ∃ t, runD body s = .next t := by
  obtain ⟨r, hr⟩ := h
  cases href : s.d.refusal with
  | some c => exact ⟨_, runD_refused href⟩
  | none => exact ⟨_, runD_ok href hr⟩

/-- A command stops only where unit D would walk without a tree (log entry 4). -/
theorem exec_completes (i : Instr) {s : State} (h : s.d.state = .decoding → s.d.node ≠ none) : ∃ t, exec i s = .next t := by
  cases hu : i.unit with
  | b =>
    obtain ⟨body, hbody⟩ := exec_unitB hu
    exact ⟨_, by rw [hbody, runB_eq]⟩
  | e =>
    obtain ⟨body, hbody⟩ := exec_unitE hu
    obtain ⟨u, r, hrun⟩ := runE_local (body s.threshold) s.e
    exact ⟨_, by rw [hbody, hrun s rfl]⟩
  | d =>
    obtain ⟨r, hr⟩ := endChunk_completes h
    cases i with
    | dput y => rw [exec_dput]; exact runD_completes ⟨_, rfl⟩
    | dend => rw [exec_dend]; exact runD_completes ⟨r, hr⟩
    | dflush => rw [exec_dflush]; exact runD_completes ⟨_, by rw [UnitD.flush, hr]; rfl⟩
    | _ => cases hu

/-- From an invariant state every input is carried out (R202). -/
theorem step_completes {s : State} (h : BlockInv s) : ∃ t, step s = .next t := by
  rcases step_cases s with ⟨-, hs⟩ | ⟨cw, rest, -, hs⟩ | ⟨rest, -, hs⟩ | ⟨l, rest, -, hs⟩ | ⟨rest, -, hs⟩
  case inr.inl =>
    rw [hs, accept]
    cases decode cw with
    | ok i => exact exec_completes i (node_of_decoderInv h.decoder)
    | error _ => exact ⟨_, rfl⟩
  all_goals exact ⟨_, hs⟩

/-- A run from an invariant state carries out every input and ends in an invariant state. -/
theorem runInputs_safe (ins : List HostInput) {s : State} (h : BlockInv s) :
    ∃ t, runInputs ins s = .next t ∧ BlockInv t ∧ t.inbox = [] := by
  induction ins generalizing s with
  | nil => exact ⟨_, runInputs_nil s, ⟨h.encoder, h.decoder⟩, rfl⟩
  | cons i ins ih =>
    have hstart : BlockInv { s with inbox := i :: ins } := ⟨h.encoder, h.decoder⟩
    obtain ⟨t, ht⟩ := step_completes hstart
    have hinbox : t.inbox = ins := step_inbox ht
    rw [runInputs_of_step (t := t) (by rw [ht, ← hinbox])]
    exact ih (everyStepKeepsTheInvariant _ _ hstart ht)

/-- Settles O54, by induction on the inputs (`runInputs_safe`). -/
theorem everyRunFromResetIsSafe : Obligations.EveryRunFromResetIsSafe :=
  fun ins => runInputs_safe ins invariantHoldsAtReset

/-! ### Status outputs, and the walk without a tree -/

theorem encState_code (x : EncState) : x.code = if x = .encoding then 1 else 0 := by cases x <;> rfl

theorem decState_code (x : DecState) : x.code = if x = .decoding then 1 else 0 := by cases x <;> rfl

/-- Settles O9, by the two codings. -/
theorem statusOutputsProjectTheState : Obligations.StatusOutputsProjectTheState :=
  ⟨fun s => ⟨encState_code s.e.state, Bool.cond_eq_ite s.e.flushed 1 0, Bool.cond_eq_ite s.e.fatal 1 0, rfl, rfl,
    decState_code s.d.state, Bool.cond_eq_ite s.d.flushed 1 0, rfl⟩, rfl⟩

/-- `DEND` in `Decoding` without a node store (log entry 4). -/
theorem endChunk_without_tree {u : UnitD} (hs : u.state = .decoding) (hn : u.node = none) :
    u.endChunk = if u.inp = [] then .ok (u, []) else .error .absentNodeStore := by
  unfold UnitD.endChunk UnitD.walk
  cases hi : u.inp <;> simp [hs, hn]

/-- Settles O45: without a tree the walk completes exactly where there is no bit to walk. -/
theorem walkWithoutATreeStops : Obligations.WalkWithoutATreeStops := by
  intro s hf hs hn
  have href : s.d.refusal = none := decoder_refusal_eq_none.2 hf
  have hend := endChunk_without_tree hs hn
  constructor
  · intro hi
    rw [if_neg hi] at hend
    constructor
    · rw [exec_dend]; exact runD_fault href hend
    · rw [exec_dflush]; exact runD_fault href (by rw [UnitD.flush, hend]; rfl)
  · intro hi
    rw [if_pos hi] at hend
    exact ⟨_, (exec_dend s).trans (runD_ok href hend), rfl, answersD_respondD s s.d _⟩

end Sys2Proof.Proofs
end

section
/-! PROOFS. The family of spec/20_memory.md: one step takes one command (R55); commands to different units commute (R56), since
each is a write to its own unit that sees nothing of another; and every built store is a full tree (R50). -/

namespace Sys2Proof.Proofs

open Sys2Proof Sys2Proof.Machine Sys2Proof.Safety Sys2Proof.Laws

/-! ### Every node but the root has one parent -/

/-- Every node but the root waits in the queue before some merge: a Terminal from the seeding, an Interior node from the merge
that makes it (R116, R118). -/
theorem exists_queue_with {i : NodeIdx} (cnt : FreqTable) (hi : i ≠ rootIdx) :
    ∃ n q, QueueAt cnt (buildNodes cnt) (n + 1) q ∧ ∃ x ∈ q, x.index = i := by
  cases hk : nodeKind i with
  | terminal v =>
    obtain ⟨x, hx, hv⟩ := exists_mem_pqSeed cnt v
    exact ⟨254, _, queueAt_start cnt, x, hx, Fin.ext (hv.trans (nodeKind_eq_terminal.1 hk).symm)⟩
  | interior k =>
    have hik := nodeKind_eq_interior.1 hk
    have hlast : i.val ≠ 510 := fun h => hi (Fin.ext h)
    obtain ⟨n, hn⟩ : ∃ n, 254 - k.val = n + 1 := ⟨253 - k.val, by omega⟩
    obtain ⟨a, b, q, hq, -⟩ := record_is_merge cnt k
    rw [hn] at hq
    refine ⟨n, _, (queueAt_merge hq).2, _, (pqInsert_perm _ _).mem_iff.2 (.head _), Fin.ext ?_⟩
    simp only [mergedItem]
    omega

/-- Every node but the root is a child: the last step of the path by which the root reaches it. -/
theorem exists_parent {i : NodeIdx} (cnt : FreqTable) (hi : i ≠ rootIdx) :
    ∃ (k : Fin 255) (bit : Bit), (buildNodes cnt)[k].child bit = i := by
  obtain ⟨n, q, hq, x, hx, rfl⟩ := exists_queue_with cnt hi
  obtain ⟨c, hc⟩ := root_reaches hq hx (c := []) rfl
  rcases List.eq_nil_or_concat c with rfl | ⟨p, bit, rfl⟩
  · simp only [descend, Option.some.injEq] at hc
    exact absurd hc.symm hi
  · rw [List.concat_eq_append] at hc
    obtain ⟨m, k, -, -, hchild⟩ := descend_snoc.1 hc
    exact ⟨k, bit, hchild⟩

/-- The root is no child: it has the greatest index. -/
theorem child_ne_root (cnt : FreqTable) (k : Fin 255) (bit : Bit) : (buildNodes cnt)[k].child bit ≠ rootIdx := by
  intro h
  have hlt := child_lt_parent cnt k bit
  rw [h, show rootIdx.val = 510 from rfl] at hlt
  omega

/-- The child on each side of each Interior node, as a node other than the root. -/
def childBelowRoot (cnt : FreqTable) (kb : Fin 255 × Bit) : { i : NodeIdx // i ≠ rootIdx } :=
  ⟨(buildNodes cnt)[kb.1].child kb.2, child_ne_root cnt kb.1 kb.2⟩

/-- The 255 Interior nodes have 510 sides, and 510 nodes are not the root: each of those has a parent, so none has two. -/
theorem childBelowRoot_bijective (cnt : FreqTable) : (childBelowRoot cnt).Bijective := by
  refine (Fintype.bijective_iff_surjective_and_card _).2 ⟨fun ⟨i, hi⟩ => ?_, by simp⟩
  obtain ⟨k, bit, h⟩ := exists_parent cnt hi
  exact ⟨(k, bit), Subtype.ext h⟩

/-- Settles O24: children come before parents (`child_lt_parent`), and parents are unique by counting
(`childBelowRoot_bijective`). -/
theorem builtTreeIsAFullTree : Obligations.BuiltTreeIsAFullTree := by
  intro cnt
  refine ⟨child_lt_parent cnt, fun i hi => ?_⟩
  simpa only [childBelowRoot, Subtype.mk.injEq] using (childBelowRoot_bijective cnt).existsUnique ⟨i, hi⟩

/-! ### Commands to different units commute -/

/-- What a command does where it gives a next state: it writes the state of one unit and that unit responds. -/
inductive UnitWrite
  | b (u : UnitB) (r : Response)
  | e (u : UnitE) (r : Response)
  | d (u : UnitD) (r : Response)

/-- The unit that is written. -/
def UnitWrite.unit : UnitWrite → UnitId
  | .b _ _ => .b
  | .e _ _ => .e
  | .d _ _ => .d

/-- The block after the write: no other unit, no waiting input and no other response log is touched. -/
def UnitWrite.apply : UnitWrite → State → State
  | .b u r, s => { s with b := u }.respondB r
  | .e u r, s => { s with e := u }.respondE r
  | .d u r, s => { s with d := u }.respondD r

/-- Two states are the same to a command of the unit: they agree on the unit's state, and on `THRESHOLD` for unit E (R10, R30). -/
def SameTo (s t : State) : UnitId → Prop
  | .b => s.b = t.b
  | .e => s.e = t.e ∧ s.threshold = t.threshold
  | .d => s.d = t.d

theorem SameTo.refl (s : State) (unit : UnitId) : SameTo s s unit := by
  cases unit with
  | b => exact Eq.refl s.b
  | e => exact ⟨rfl, rfl⟩
  | d => exact Eq.refl s.d

theorem SameTo.symm {s t : State} {unit : UnitId} (h : SameTo s t unit) : SameTo t s unit := by
  cases unit with
  | b => exact Eq.symm h
  | e => exact ⟨h.1.symm, h.2.symm⟩
  | d => exact Eq.symm h

/-- A command is one write to its unit, the same write in every state that is the same to it. -/
theorem exec_eq_apply {i : Instr} {s t : State} (h : exec i s = .next t) :
    ∃ w : UnitWrite, w.unit = i.unit ∧ ∀ s', SameTo s' s i.unit → exec i s' = .next (w.apply s') := by
  cases hu : i.unit with
  | b =>
    obtain ⟨body, hbody⟩ := exec_unitB hu
    obtain ⟨u', r, hrun⟩ := runB_local body s.b
    exact ⟨.b u' r, rfl, fun s' hs => (hbody s').trans (hrun s' hs)⟩
  | e =>
    obtain ⟨body, hbody⟩ := exec_unitE hu
    obtain ⟨u', r, hrun⟩ := runE_local (body s.threshold) s.e
    exact ⟨.e u' r, rfl, fun s' ⟨he, ht⟩ => by rw [hbody, ht]; exact hrun s' he⟩
  | d =>
    obtain ⟨body, hbody⟩ := exec_unitD hu
    rcases runD_local body s.d with ⟨f, hrun⟩ | ⟨u', r, hrun⟩
    · rw [hbody, hrun s rfl] at h
      cases h
    · exact ⟨.d u' r, rfl, fun s' hs => (hbody s').trans (hrun s' hs)⟩

/-- A write to one unit is nothing to the commands of another (R10). -/
theorem apply_sameTo {w : UnitWrite} {unit : UnitId} (h : w.unit ≠ unit) (s : State) : SameTo (w.apply s) s unit := by
  cases unit with
  | b => cases w with
    | b => exact absurd rfl h
    | e => exact Eq.refl s.b
    | d => exact Eq.refl s.b
  | e => cases w with
    | b => exact ⟨rfl, rfl⟩
    | e => exact absurd rfl h
    | d => exact ⟨rfl, rfl⟩
  | d => cases w with
    | b => exact Eq.refl s.d
    | e => exact Eq.refl s.d
    | d => exact absurd rfl h

theorem apply_comm {w w' : UnitWrite} (h : w.unit ≠ w'.unit) (s : State) :
    w.apply (w'.apply s) = w'.apply (w.apply s) := by
  cases w with
  | b => cases w' with
    | b => exact absurd rfl h
    | e => rfl
    | d => rfl
  | e => cases w' with
    | b => rfl
    | e => exact absurd rfl h
    | d => rfl
  | d => cases w' with
    | b => rfl
    | e => rfl
    | d => exact absurd rfl h

/-- Settles O47: the two commands are writes to different units (`exec_eq_apply`), neither sees the other's, and the writes
commute. -/
theorem unitsCommute : Obligations.UnitsCommute := by
  intro i j s t u hne hi hj
  obtain ⟨w, hw, hexec⟩ := exec_eq_apply hi
  obtain ⟨w', hw', hexec'⟩ := exec_eq_apply hj
  rw [← hw, ← hw'] at hne
  rw [← hw] at hexec
  rw [← hw'] at hexec'
  obtain rfl : w.apply s = t := Host.Outcome.next.inj ((hexec s (.refl s _)).symm.trans hi)
  obtain rfl : w'.apply (w.apply s) = u := Host.Outcome.next.inj ((hexec' _ (.refl _ _)).symm.trans hj)
  refine ⟨w'.apply s, hexec' s (apply_sameTo hne s).symm, ?_⟩
  rw [hexec _ (apply_sameTo hne.symm s), apply_comm hne]

/-! ### The step -/

/-- A step with a command word waiting takes it and accepts it (R55). -/
theorem step_command {s : State} {cw : CmdWord} {rest : List HostInput} (h : s.inbox = .command cw :: rest) :
    step s = accept cw { s with inbox := rest } := by
  rw [step, State.takeInput, h]

theorem accept_of_decode {cw : CmdWord} {i : Instr} (h : decode cw = .ok i) (s : State) : accept cw s = exec i s := by
  rw [accept, h]

/-- Settles O4: the step accepts the word, and to accept a word that decodes is to run its command. -/
theorem stepRunsDecodedCommand : Obligations.StepRunsDecodedCommand :=
  fun _ _ _ _ hin hdec => (step_command hin).trans (accept_of_decode hdec _)

end Sys2Proof.Proofs
end

section
/-! PROOFS. The family of spec/30_encoding.md: a word is the word of a command or is without meaning by every account of it
(R70 to R77), an illegal word is refused, a command gives one response of its form (R78, R79), BAPPBYTES runs to its end (R82), and
of the codewords of a tree none begins another and every long enough bit sequence begins with one (R80). -/

namespace Sys2Proof.Proofs

open Sys2Proof Sys2Proof.Machine Sys2Proof.Safety Sys2Proof.Laws

/-! ### Words by their fields (R70) -/

section
variable (unit funct : BitVec 4) (arg : Byte)

@[simp] theorem extract_unit_wordOf : (wordOf unit funct arg).extractLsb' 12 4 = unit :=
  BitVec.eq_of_toNat_eq (unitField_wordOf unit funct arg)

@[simp] theorem extract_funct_wordOf : (wordOf unit funct arg).extractLsb' 8 4 = funct :=
  BitVec.eq_of_toNat_eq (functField_wordOf unit funct arg)

@[simp] theorem extract_fn_wordOf : (wordOf unit funct arg).extractLsb' 8 3 = funct.extractLsb' 0 3 :=
  BitVec.eq_of_toNat_eq (fnField_wordOf unit funct arg)

@[simp] theorem extract_arg_wordOf : (wordOf unit funct arg).extractLsb' 0 8 = arg := argField_wordOf unit funct arg

end

theorem wordOf_inj {u u' f f' : BitVec 4} {a a' : Byte} :
    wordOf u f a = wordOf u' f' a' ↔ u = u' ∧ f = f' ∧ a = a' := by
  refine ⟨fun h => ⟨?_, ?_, ?_⟩, fun ⟨hu, hf, ha⟩ => by rw [hu, hf, ha]⟩
  · rw [← extract_unit_wordOf u f a, h, extract_unit_wordOf]
  · rw [← extract_funct_wordOf u f a, h, extract_funct_wordOf]
  · rw [← extract_arg_wordOf u f a, h, extract_arg_wordOf]

theorem wordOf_and (u u' f f' : BitVec 4) (a a' : Byte) :
    wordOf u f a &&& wordOf u' f' a' = wordOf (u &&& u') (f &&& f') (a &&& a') := by
  refine BitVec.eq_of_getLsbD_eq fun i hi => ?_
  simp only [BitVec.getLsbD_and, wordOf_getLsbD]
  split_ifs <;> rfl

/-- A word selects a row when each of its fields matches under the mask's (R73). -/
@[simp] theorem selectedBy_wordOf (r : OpcodeRow) (u f : BitVec 4) (a : Byte) :
    r.selectedBy (wordOf u f a) = true ↔
      u &&& r.mask.extractLsb' 12 4 = r.pattern.extractLsb' 12 4 ∧
      f &&& r.mask.extractLsb' 8 4 = r.pattern.extractLsb' 8 4 ∧
      a &&& r.mask.extractLsb' 0 8 = r.pattern.extractLsb' 0 8 := by
  obtain ⟨name, pattern, mask⟩ := r
  obtain ⟨pu, pf, pa, rfl⟩ := exists_wordOf pattern
  obtain ⟨mu, mf, ma, rfl⟩ := exists_wordOf mask
  simp only [OpcodeRow.selectedBy, wordOf_and, beq_iff_eq, wordOf_inj, extract_unit_wordOf, extract_funct_wordOf,
    extract_arg_wordOf]

/-- The three checks of R77 on the fields of a word. Which bits must be 0 does not depend on `arg`. -/
theorem wellFormed_wordOf (u f : BitVec 4) (a : Byte) :
    WellFormed (wordOf u f a) = true ↔
      (u = 1#4 ∨ u = 2#4 ∨ u = 3#4) ∧ (u = 1#4 ∨ f.ult 3#4 = true) ∧ a &&& mustBeZeroMask (wordOf u f 0) = 0#8 := by
  simp [WellFormed, unitNamed, functUsed, mustBeZeroClear, mustBeZeroMask, and_assoc, or_assoc]

/-! Masks of a whole field, and what `arg` is where format T or X is obeyed (R71). -/

theorem and_fifteen (x : BitVec 4) : x &&& 15#4 = x := BitVec.and_allOnes

theorem and_255 (x : Byte) : x &&& 255#8 = x := BitVec.and_allOnes

theorem and_254_eq_zero_iff : ∀ {a : Byte}, a &&& 254#8 = 0#8 ↔ a = 0#8 ∨ a = 1#8 := by decide

theorem high_bits_eq_zero_iff : ∀ {a : Byte}, a.extractLsb' 1 7 = 0#7 ↔ a = 0#8 ∨ a = 1#8 := by decide

/-! `funct` of a unit B word is `s` followed by `fn` (R70). -/

theorem exists_sel_fn (funct : BitVec 4) : ∃ (sel : BufSel) (fn : BitVec 3), funct = sel.bit ++ fn :=
  ⟨if funct.getLsbD 3 then .bb1 else .bb0, funct.extractLsb' 0 3, by revert funct; decide⟩

@[simp] theorem sel_fn_and_seven (sel : BufSel) (fn : BitVec 3) : (sel.bit ++ fn) &&& 7#4 = 0#1 ++ fn := by
  cases sel <;> (revert fn; decide)

@[simp] theorem extract_fn_sel_fn (sel : BufSel) (fn : BitVec 3) : (sel.bit ++ fn).extractLsb' 0 3 = fn := by
  cases sel <;> (revert fn; decide)

theorem fn_cases (fn : BitVec 3) :
    fn = 0#3 ∨ fn = 1#3 ∨ fn = 2#3 ∨ fn = 3#3 ∨ fn = 4#3 ∨ fn = 5#3 ∨ fn = 6#3 ∨ fn = 7#3 := by
  revert fn; decide

/-! ### A word is the word of a command, or has no meaning (R73 to R77) -/

/-- A word without meaning, by each account of it: it does not decode, it selects no row, and a field check fails. -/
structure Meaningless (cw : CmdWord) : Prop where
  undecoded : ∃ why, decode cw = .error why
  rows : ∀ r ∈ opcodeTable, ¬ r.selectedBy cw = true
  checks : ¬ WellFormed cw = true

/-- The first class of R77. -/
theorem meaningless_of_unit {u : BitVec 4} (f : BitVec 4) (a : Byte) (h1 : u ≠ 1#4) (h2 : u ≠ 2#4) (h3 : u ≠ 3#4) :
    Meaningless (wordOf u f a) where
  undecoded := by
    have n1 := BitVec.toNat_ne.1 h1
    have n2 := BitVec.toNat_ne.1 h2
    have n3 := BitVec.toNat_ne.1 h3
    refine ⟨.noSuchUnit, ?_⟩
    unfold decode
    rw [unitField_wordOf]
    split <;> simp_all
  rows := by simp [opcodeTable, opcodeRowsB, opcodeRowsE, opcodeRowsD, and_fifteen, h1, h2, h3]
  checks := by simp [wellFormed_wordOf, h1, h2, h3]

theorem decode_wordOf_two (f : BitVec 4) (a : Byte) : decode (wordOf 2#4 f a) = decodeE (wordOf 2#4 f a) := by simp [decode]

theorem decode_wordOf_three (f : BitVec 4) (a : Byte) : decode (wordOf 3#4 f a) = decodeD (wordOf 3#4 f a) := by simp [decode]

/-- The second class of R77. -/
theorem meaningless_of_funct {u f : BitVec 4} (a : Byte) (hu : u = 2#4 ∨ u = 3#4) (h0 : f ≠ 0#4) (h1 : f ≠ 1#4)
    (h2 : f ≠ 2#4) : Meaningless (wordOf u f a) where
  undecoded := by
    have n0 := BitVec.toNat_ne.1 h0
    have n1 := BitVec.toNat_ne.1 h1
    have n2 := BitVec.toNat_ne.1 h2
    refine ⟨.unusedFunct, ?_⟩
    rcases hu with rfl | rfl
    · rw [decode_wordOf_two, decodeE, functField_wordOf]
      split <;> simp_all
    · rw [decode_wordOf_three, decodeD, functField_wordOf]
      split <;> simp_all
  rows := by
    rcases hu with rfl | rfl <;>
      simp [opcodeTable, opcodeRowsB, opcodeRowsE, opcodeRowsD, and_fifteen, h0, h1, h2]
  checks := by
    have hf : f.ult 3#4 = false := by revert f; decide
    rcases hu with rfl | rfl <;> simp [wellFormed_wordOf, hf]

theorem decode_wordOf_one (f : BitVec 4) (a : Byte) : decode (wordOf 1#4 f a) = decodeB (wordOf 1#4 f a) := by simp [decode]

/-- The bits of `arg` that a unit B word must have clear, by its `fn`: none in format Y (`BAPPB`), all but `arg[0]` in formats T
and X, all in format N (R71, R73). -/
theorem argB_clear_iff (sel : BufSel) (fn : BitVec 3) (a : Byte) :
    a &&& mustBeZeroMask (wordOf 1#4 (sel.bit ++ fn) 0) = 0#8 ↔
      if fn = 4#3 then True else if fn = 0#3 ∨ fn = 1#3 ∨ fn = 7#3 then a = 0#8 ∨ a = 1#8 else a = 0#8 := by
  simp only [mustBeZeroMask, extract_unit_wordOf, extract_fn_wordOf, extract_fn_sel_fn]
  split_ifs <;> simp_all [and_255, and_254_eq_zero_iff]

/-- The third class of R77, for unit B. -/
theorem meaningless_of_argB (sel : BufSel) {fn : BitVec 3} {a : Byte}
    (h : a &&& mustBeZeroMask (wordOf 1#4 (sel.bit ++ fn) 0) ≠ 0#8) : Meaningless (wordOf 1#4 (sel.bit ++ fn) a) where
  undecoded := by
    rw [Ne, argB_clear_iff] at h
    refine ⟨.mustBeZero, ?_⟩
    rw [decode_wordOf_one]
    rcases fn_cases fn with rfl | rfl | rfl | rfl | rfl | rfl | rfl | rfl <;>
      simp_all [decodeB, formatN, formatT, formatX, high_bits_eq_zero_iff]
  rows := by
    rw [Ne, argB_clear_iff] at h
    rcases fn_cases fn with rfl | rfl | rfl | rfl | rfl | rfl | rfl | rfl <;>
      simp_all [opcodeTable, opcodeRowsB, opcodeRowsE, opcodeRowsD, and_255, and_254_eq_zero_iff]
  checks := by
    rw [wellFormed_wordOf]
    exact fun ⟨_, _, hclear⟩ => h hclear

/-- The third class of R77, for the commands of units E and D without an operand. -/
theorem meaningless_of_argN {u f : BitVec 4} {a : Byte} (hu : u = 2#4 ∨ u = 3#4) (hf : f = 1#4 ∨ f = 2#4) (ha : a ≠ 0#8) :
    Meaningless (wordOf u f a) where
  undecoded := by
    refine ⟨.mustBeZero, ?_⟩
    rcases hu with rfl | rfl <;> rcases hf with rfl | rfl <;> simp [decode, decodeE, decodeD, formatN, ha]
  rows := by
    rcases hu with rfl | rfl <;> rcases hf with rfl | rfl <;>
      simp [opcodeTable, opcodeRowsB, opcodeRowsE, opcodeRowsD, and_255, ha]
  checks := by
    rcases hu with rfl | rfl <;> rcases hf with rfl | rfl <;> simp [wellFormed_wordOf, mustBeZeroMask, and_255, ha]

/-- The rows of unit B, by `fn` (R73). -/
theorem encode_of_argB (sel : BufSel) {fn : BitVec 3} {a : Byte}
    (h : a &&& mustBeZeroMask (wordOf 1#4 (sel.bit ++ fn) 0) = 0#8) : ∃ i, encode i = wordOf 1#4 (sel.bit ++ fn) a := by
  rw [argB_clear_iff] at h
  rcases fn_cases fn with rfl | rfl | rfl | rfl | rfl | rfl | rfl | rfl
  · rcases h with rfl | rfl
    exacts [⟨.bpushb sel false, rfl⟩, ⟨.bpushb sel true, rfl⟩]
  · rcases h with rfl | rfl
    exacts [⟨.bpushf sel false, rfl⟩, ⟨.bpushf sel true, rfl⟩]
  · obtain rfl : a = 0#8 := h
    exact ⟨.bpopf sel, rfl⟩
  · obtain rfl : a = 0#8 := h
    exact ⟨.bpopb sel, rfl⟩
  · exact ⟨.bappb sel a, rfl⟩
  · obtain rfl : a = 0#8 := h
    exact ⟨.bpack sel, rfl⟩
  · obtain rfl : a = 0#8 := h
    exact ⟨.blen sel, rfl⟩
  · rcases h with rfl | rfl
    exacts [⟨.bappend sel, rfl⟩, ⟨.bcopy sel, rfl⟩]

/-- The rows of units E and D, by `funct` (R74, R75). -/
theorem encode_or_meaningless_ED {u : BitVec 4} (f : BitVec 4) (a : Byte) (hu : u = 2#4 ∨ u = 3#4) :
    (∃ i, encode i = wordOf u f a) ∨ Meaningless (wordOf u f a) := by
  by_cases h0 : f = 0#4
  · left
    rcases hu with rfl | rfl
    exacts [⟨.eput a, by rw [h0]; rfl⟩, ⟨.dput a, by rw [h0]; rfl⟩]
  by_cases hf : f = 1#4 ∨ f = 2#4
  · by_cases ha : a = 0#8
    · left
      rcases hu with rfl | rfl <;> rcases hf with rfl | rfl <;> rw [ha]
      exacts [⟨.eend, rfl⟩, ⟨.eflush, rfl⟩, ⟨.dend, rfl⟩, ⟨.dflush, rfl⟩]
    · exact .inr (meaningless_of_argN hu hf ha)
  · exact .inr (meaningless_of_funct a hu h0 (fun h => hf (.inl h)) fun h => hf (.inr h))

/-- Every word is the word of a command, or has no meaning by any account. -/
theorem encode_or_meaningless (cw : CmdWord) : (∃ i, encode i = cw) ∨ Meaningless cw := by
  obtain ⟨u, f, a, rfl⟩ := exists_wordOf cw
  by_cases h1 : u = 1#4
  · obtain ⟨sel, fn, rfl⟩ := exists_sel_fn f
    subst h1
    by_cases h : a &&& mustBeZeroMask (wordOf 1#4 (sel.bit ++ fn) 0) = 0#8
    exacts [.inl (encode_of_argB sel h), .inr (meaningless_of_argB sel h)]
  by_cases hu : u = 2#4 ∨ u = 3#4
  · exact encode_or_meaningless_ED f a hu
  · exact .inr (meaningless_of_unit f a h1 (fun h => hu (.inl h)) fun h => hu (.inr h))

/-! ### The word of a command -/

theorem decode_encode (i : Instr) : decode (encode i) = .ok i := by
  cases i with
  | bpushb sel b | bpushf sel b => cases sel <;> cases b <;> rfl
  | bappb sel y => cases sel <;> simp [encode, wordOfB, decode, decodeB, formatY, BufSel.bit]
  | eput y => simp [encode, decode, decodeE, formatY]
  | dput y => simp [encode, decode, decodeD, formatY]
  | bpopf sel | bpopb sel | bpack sel | blen sel | bappend sel | bcopy sel => cases sel <;> rfl
  | eend | eflush | dend | dflush => rfl

/-- The word of a command selects the command's row and no other (R73 to R75). -/
theorem rows_encode (i : Instr) : (opcodeTable.filter (·.selectedBy (encode i))).map OpcodeRow.mnemonic = [i.mnemonic] := by
  cases i with
  | bpushb sel b | bpushf sel b => cases sel <;> cases b <;> decide
  | bpopf sel | bpopb sel | bpack sel | blen sel | bappend sel | bcopy sel => cases sel <;> decide
  | eend | eflush | dend | dflush => decide
  | bappb _ y | eput y | dput y =>
    simp [encode, wordOfB, opcodeTable, opcodeRowsB, opcodeRowsE, opcodeRowsD, Instr.mnemonic]

theorem wellFormed_encode (i : Instr) : WellFormed (encode i) = true := by
  cases i with
  | bpushb sel b => exact EncodedWord.bpushb sel b
  | bpushf sel b => exact EncodedWord.bpushf sel b
  | bpopf sel => exact EncodedWord.bpopf sel
  | bpopb sel => exact EncodedWord.bpopb sel
  | bappb sel y => exact EncodedWord.bappb sel y
  | bpack sel => exact EncodedWord.bpack sel
  | blen sel => exact EncodedWord.blen sel
  | bappend sel => exact EncodedWord.bappend sel
  | bcopy sel => exact EncodedWord.bcopy sel
  | eput y => exact EncodedWord.eput y
  | eend => exact EncodedWord.eend
  | eflush => exact EncodedWord.eflush
  | dput y => exact EncodedWord.dput y
  | dend => exact EncodedWord.dend
  | dflush => exact EncodedWord.dflush

/-- The words that decode to a command: its own and no other (R77). -/
theorem decode_eq_ok_iff {cw : CmdWord} {i : Instr} : decode cw = .ok i ↔ encode i = cw := by
  refine ⟨fun h => ?_, fun h => h ▸ decode_encode i⟩
  rcases encode_or_meaningless cw with ⟨j, rfl⟩ | ⟨⟨why, hwhy⟩, -, -⟩
  · rw [decode_encode, Except.ok.injEq] at h
    rw [h]
  · rw [h] at hwhy
    cases hwhy

theorem meaningless_of_decode_error {cw : CmdWord} {why : Illegal} (h : decode cw = .error why) : Meaningless cw := by
  refine (encode_or_meaningless cw).resolve_left fun ⟨i, hi⟩ => ?_
  rw [decode_eq_ok_iff.2 hi] at h
  cases h

/-- A word that selects no row is not the word of a command. -/
theorem meaningless_of_no_row {cw : CmdWord} (h : ∀ r ∈ opcodeTable, ¬ r.selectedBy cw = true) : Meaningless cw := by
  refine (encode_or_meaningless cw).resolve_left fun ⟨i, hi⟩ => ?_
  have hrow := rows_encode i
  rw [hi, List.filter_eq_nil_iff.2 h] at hrow
  cases hrow

/-- Settles O2: the decoder undoes the encoder on each command, and a word it gives no meaning is no command's. -/
theorem decodeAndEncodeAgree : Obligations.DecodeAndEncodeAgree :=
  ⟨decode_encode, fun _ _ => decode_eq_ok_iff.1⟩

/-- Settles O3: a word that decodes is the word of its command, and a word that does not has no meaning by any account. -/
theorem wordsSelectTheirRowOnly : Obligations.WordsSelectTheirRowOnly := by
  intro cw
  split
  · next i hi =>
    obtain rfl := decode_eq_ok_iff.1 hi
    exact ⟨rows_encode i, wellFormed_encode i⟩
  · next why hwhy =>
    obtain ⟨-, hrows, hchecks⟩ := meaningless_of_decode_error hwhy
    exact ⟨List.filter_eq_nil_iff.2 hrows, Bool.eq_false_iff.2 hchecks⟩

/-- Settles O1: each of these words is the word of its command. -/
theorem specWordsDecode : Obligations.SpecWordsDecode := by
  simp only [Obligations.SpecWordsDecode, decode_eq_ok_iff]
  decide

/-! ### An illegal word is refused (R77, R171) -/

/-- A word without meaning is answered with the illegal command's cause and nothing else happens (R171, R179). -/
theorem accept_of_meaningless {cw : CmdWord} (h : Meaningless cw) (s : State) :
    accept cw s = .next (s.respond (answerer cw) (Response.ofCause .illegalCommand)) := by
  obtain ⟨why, hwhy⟩ := h.undecoded
  rw [accept, hwhy, raise_refusal (by simp)]

section
variable (who : Option UnitId) (r : Response) (s : State)

@[simp] theorem respond_b : (s.respond who r).b = s.b := by rcases who with _ | ⟨⟨⟩⟩ <;> rfl

theorem respond_respB : (s.respond who r).respB = s.respB ++ if who = some .b then [r] else [] := by
  rcases who with _ | ⟨⟨⟩⟩ <;> simp [State.respond]

theorem respond_respE : (s.respond who r).respE = s.respE ++ if who = some .e then [r] else [] := by
  rcases who with _ | ⟨⟨⟩⟩ <;> simp [State.respond]

theorem respond_respD : (s.respond who r).respD = s.respD ++ if who = some .d then [r] else [] := by
  rcases who with _ | ⟨⟨⟩⟩ <;> simp [State.respond]

theorem respond_respX : (s.respond who r).respX = s.respX ++ if who = none then [r] else [] := by
  rcases who with _ | ⟨⟨⟩⟩ <;> simp [State.respond]

end

/-- Who answers a word, by the code it carries (R72). -/
theorem answerer_eq_iff (cw : CmdWord) :
    (answerer cw = some .b ↔ cw.extractLsb' 12 4 = 1) ∧ (answerer cw = some .e ↔ cw.extractLsb' 12 4 = 2) ∧
      (answerer cw = some .d ↔ cw.extractLsb' 12 4 = 3) ∧
      (answerer cw = none ↔ cw.extractLsb' 12 4 ∉ [1#4, 2#4, 3#4]) := by
  unfold answerer unitField
  generalize cw.extractLsb' 12 4 = u
  revert u
  decide

/-- Settles O5: the word has no meaning, so the one who answers it refuses it, and a response touches one log only. -/
theorem illegalWordIsRefused : Obligations.IllegalWordIsRefused := by
  intro s cw rest hin hrows
  have hno : Meaningless cw := meaningless_of_no_row (by simpa using hrows)
  obtain ⟨hb, he, hd, hx⟩ := answerer_eq_iff cw
  refine ⟨_, (step_command hin).trans (accept_of_meaningless hno _), ?_⟩
  simp only [respond_b, respond_e, respond_d, respond_threshold, respond_inbox, respond_respB, respond_respE, respond_respD,
    respond_respX, hb, he, hd, hx, ite_not, true_and]
  exact ⟨rfl, rfl, rfl, rfl⟩

/-! ### One response of its form (R78, R79) -/

/-- The commands whose response may say `ABSENT` (R78). -/
def IsPop (i : Instr) : Prop := i.mnemonic ∈ ["BPOPF", "BPOPB"]

/-- The commands whose response may carry a value other than 0 (R78). -/
def GivesValue (i : Instr) : Prop := i.mnemonic ∈ ["BPOPF", "BPOPB", "BLEN"]

/-- The commands whose response may carry data (R78). -/
def GivesData (i : Instr) : Prop := i.mnemonic ∈ ["BPACK", "EEND", "EFLUSH", "DEND", "DFLUSH"]

/-- The responses the table of R78 gives a command. -/
inductive ResponseForm (i : Instr) : Response → Prop
  | done (val : Nat) (data : ByteSeq) (hval : val ≠ 0 → GivesValue i) (hdata : data ≠ [] → GivesData i) :
      ResponseForm i (Response.okWith val data)
  | absent (h : IsPop i) : ResponseForm i Response.absent
  | halted (h : i.unit = .e) : ResponseForm i (Response.ofCause .unitHalted)
  | flushed (h : i.unit ≠ .b) : ResponseForm i (Response.ofCause .protocolAfterFlush)
  | miss (h : i.unit = .e) : ResponseForm i (Response.ofCause .indexMiss)

theorem responseForm_pop {i : Instr} (h : IsPop i) (popped : Option Bit) :
    ResponseForm i (popResponse popped) := by
  cases popped with
  | none => exact .absent h
  | some bit => exact .done _ _ (fun _ => List.mem_append_left ["BLEN"] h) (fun h => absurd rfl h)

theorem responseForm_ok (i : Instr) : ResponseForm i Response.done :=
  .done 0 [] (fun h => absurd rfl h) (fun h => absurd rfl h)

/-- A unit B command is never refused (R100), and its body's response has its form. -/
theorem exec_responseB {i : Instr} {s t : State} (hu : i.unit = .b) (h : exec i s = .next t) :
    ∃ r, ResponseForm i r ∧ AnswersB s t r := by
  have hbody : ∃ body, (∀ s, exec i s = runB body s) ∧ ∀ u, ResponseForm i (body u).2 := by
    cases i with
    | bpushb sel bit => exact ⟨_, exec_bpushb sel bit, fun _ => responseForm_ok _⟩
    | bpushf sel bit => exact ⟨_, exec_bpushf sel bit, fun _ => responseForm_ok _⟩
    | bpopf sel => exact ⟨_, exec_bpopf sel, fun _ => responseForm_pop (by simp [IsPop, Instr.mnemonic]) _⟩
    | bpopb sel => exact ⟨_, exec_bpopb sel, fun _ => responseForm_pop (by simp [IsPop, Instr.mnemonic]) _⟩
    | bappb sel y => exact ⟨_, exec_bappb sel y, fun _ => responseForm_ok _⟩
    | bpack sel => exact ⟨_, exec_bpack sel, fun _ => .done _ _ (fun h => absurd rfl h) (by simp [GivesData, Instr.mnemonic])⟩
    | blen sel => exact ⟨_, exec_blen sel, fun _ => .done _ _ (by simp [GivesValue, Instr.mnemonic]) (fun h => absurd rfl h)⟩
    | bappend sel => exact ⟨_, exec_bappend sel, fun _ => responseForm_ok _⟩
    | bcopy sel => exact ⟨_, exec_bcopy sel, fun _ => responseForm_ok _⟩
    | _ => cases hu
  obtain ⟨body, hexec, hform⟩ := hbody
  rw [hexec, runB_eq] at h
  cases h
  exact ⟨_, hform s.b, answersB_respondB s _ _⟩

/-- The refusals of unit E's prologue and its roll-back have their form (R131, R174), and so has what the body gives. -/
theorem runE_response {i : Instr} {body : UnitE → Option (UnitE × ByteSeq)} {s t : State} (hu : i.unit = .e)
    (hdata : ∀ r, body s.e = some r → r.2 ≠ [] → GivesData i)
    (h : runE body s = .next t) : ∃ r, ResponseForm i r ∧ AnswersE s t r := by
  rcases runE_cases body s with ⟨c, hc, hrun⟩ | ⟨-, -, hrun⟩ | ⟨r, -, hb, hrun⟩ <;> rw [hrun] at h <;> cases h
  · refine ⟨_, ?_, answersE_respondE s s.e _⟩
    rcases encoder_refusal_eq_some.1 hc with ⟨-, rfl⟩ | ⟨-, -, rfl⟩
    exacts [.halted hu, .flushed (by rw [hu]; decide)]
  · exact ⟨_, .miss hu, answersE_respondE s _ _⟩
  · exact ⟨_, .done 0 r.2 (fun h => absurd rfl h) (hdata r hb), answersE_respondE s _ _⟩

/-- The refusal of unit D's prologue has its form (R151), and so has what the body gives. -/
theorem runD_response {i : Instr} {body : UnitD → Except Fault (UnitD × ByteSeq)} {s t : State} (hu : i.unit = .d)
    (hdata : ∀ r, body s.d = .ok r → r.2 ≠ [] → GivesData i)
    (h : runD body s = .next t) : ∃ r, ResponseForm i r ∧ AnswersD s t r := by
  rcases runD_cases body s with ⟨-, hrun⟩ | ⟨f, -, -, hrun⟩ | ⟨r, -, hb, hrun⟩ <;> rw [hrun] at h <;> cases h
  · exact ⟨_, .flushed (by rw [hu]; decide), answersD_respondD s s.d _⟩
  · exact ⟨_, .done 0 r.2 (fun h => absurd rfl h) (hdata r hb), answersD_respondD s _ _⟩

theorem exec_responseE {i : Instr} {s t : State} (hu : i.unit = .e) (h : exec i s = .next t) :
    ∃ r, ResponseForm i r ∧ AnswersE s t r := by
  cases i with
  | eput y =>
    rw [exec_eput] at h
    refine runE_response rfl (fun r hr hdata => ?_) h
    obtain ⟨u, -, rfl⟩ := Option.map_eq_some_iff.1 hr
    exact absurd rfl hdata
  | eend => exact runE_response rfl (fun _ _ _ => by simp [GivesData, Instr.mnemonic]) (exec_eend s ▸ h)
  | eflush => exact runE_response rfl (fun _ _ _ => by simp [GivesData, Instr.mnemonic]) (exec_eflush s ▸ h)
  | _ => cases hu

theorem exec_responseD {i : Instr} {s t : State} (hu : i.unit = .d) (h : exec i s = .next t) :
    ∃ r, ResponseForm i r ∧ AnswersD s t r := by
  cases i with
  | dput y =>
    rw [exec_dput] at h
    refine runD_response rfl (fun r hr hdata => ?_) h
    cases hr
    exact absurd rfl hdata
  | dend => exact runD_response rfl (fun _ _ _ => by simp [GivesData, Instr.mnemonic]) (exec_dend s ▸ h)
  | dflush => exact runD_response rfl (fun _ _ _ => by simp [GivesData, Instr.mnemonic]) (exec_dflush s ▸ h)
  | _ => cases hu

/-- A command that gives a next state gives one response, of its form, at its unit, and no other (R78). -/
theorem exec_response {i : Instr} {s t : State} (h : exec i s = .next t) :
    ∃ r, ResponseForm i r ∧ t.respB = s.respB ++ (if i.unit = .b then [r] else []) ∧
      t.respE = s.respE ++ (if i.unit = .e then [r] else []) ∧ t.respD = s.respD ++ (if i.unit = .d then [r] else []) ∧
      t.respX = s.respX := by
  cases hu : i.unit with
  | b =>
    obtain ⟨r, hform, hr, ho⟩ := exec_responseB hu h
    exact ⟨r, hform, by simpa using hr, by simpa using ho.respE, by simpa using ho.respD, ho.respX⟩
  | e =>
    obtain ⟨r, hform, hr, ho⟩ := exec_responseE hu h
    exact ⟨r, hform, by simpa using ho.respB, by simpa using hr, by simpa using ho.respD, ho.respX⟩
  | d =>
    obtain ⟨r, hform, hr, ho⟩ := exec_responseD hu h
    exact ⟨r, hform, by simpa using ho.respB, by simpa using ho.respE, by simpa using hr, ho.respX⟩

/-- Settles O8: the one response (`exec_response`) has one of the forms of `ResponseForm`. -/
theorem everyCommandGivesOneResponse : Obligations.EveryCommandGivesOneResponse := by
  intro i s t h
  obtain ⟨r, hform, hb, he, hd, hx⟩ := exec_response h
  refine ⟨r, hb, he, hd, hx, ?_⟩
  cases hform with
  | done val data hval hdata => exact ⟨hval, hdata⟩
  | absent hi => exact ⟨hi, rfl, rfl⟩
  | halted hu => exact ⟨.inl ⟨rfl, hu⟩, rfl⟩
  | flushed hu => exact ⟨.inr ⟨rfl, hu⟩, rfl⟩
  | miss hu => exact ⟨hu, rfl, rfl⟩

/-! ### BAPPBYTES (R82) -/

/-- Settles O20, by induction on the bytes: each is one `BAPPB`, which is never refused (R95, R100). -/
theorem bappbytesAppendsAll : Obligations.BappbytesAppendsAll := by
  intro sel ys
  induction ys with
  | nil =>
    intro s
    exact ⟨_, runInputs_nil s, by simp [bbAppendBytes], rfl, by simp, rfl, rfl, rfl, rfl, rfl, rfl⟩
  | cons y ys ih =>
    intro s
    have hy : exec (.bappb sel y) s = .next _ := (exec_bappb sel y s).trans (runB_eq _ s)
    obtain ⟨t, hrun, hb, hin, hresp, hrest⟩ := ih _
    refine ⟨t, (runInputs_command (decode_encode _) hy _).trans hrun, ?_, hin, ?_, hrest⟩
    · rw [hb]
      simp [bbAppendBytes]
    · rw [hresp, respondB_respB, List.append_assoc]
      rfl

/-! ### The codewords of a tree (R80) -/

/-- A codeword is a path from the root to the Terminal of its byte (R120). -/
theorem codeword_path {cnt : FreqTable} {v : Byte} {c : BitSeq} (h : (build cnt).2.codeword v = some c) :
    ∃ j, descend (buildNodes cnt) rootIdx c = some j ∧ nodeKind j = .terminal v := by
  rw [codeword_build, List.lookup_eq_some_iff] at h
  obtain ⟨l₁, l₂, hl, -⟩ := h
  obtain ⟨c', j, rfl, hj⟩ := leafPaths_sound (hl ▸ List.mem_append_right l₁ (.head l₂))
  exact ⟨j, hj⟩

/-- Only the empty path leads from the root to the root, which is no child. -/
theorem path_to_root {cnt : FreqTable} {p : BitSeq} (h : descend (buildNodes cnt) rootIdx p = some rootIdx) : p = [] := by
  rcases List.eq_nil_or_concat' p with rfl | ⟨p, bit, rfl⟩
  · rfl
  · obtain ⟨m, k, -, -, hchild⟩ := descend_snoc.1 h
    exact absurd hchild (child_ne_root cnt k bit)

/-- Only one path leads from the root to a node: its last step is the one from the node's only parent. -/
theorem path_unique {cnt : FreqTable} {i : NodeIdx} {p q : BitSeq} (hp : descend (buildNodes cnt) rootIdx p = some i)
    (hq : descend (buildNodes cnt) rootIdx q = some i) : p = q := by
  induction p using List.reverseRecOn generalizing i q with
  | nil =>
    simp only [descend, Option.some.injEq] at hp
    subst hp
    exact (path_to_root hq).symm
  | append_singleton p bit ih =>
    obtain ⟨m, k, hm, hmk, hchild⟩ := descend_snoc.1 hp
    rcases List.eq_nil_or_concat' q with rfl | ⟨q, bit', rfl⟩
    · simp only [descend, Option.some.injEq] at hq
      subst hq
      exact path_to_root hp
    · obtain ⟨m', k', hm', hmk', hchild'⟩ := descend_snoc.1 hq
      obtain ⟨rfl, rfl⟩ : k = k' ∧ bit = bit' := by
        have hinj := (childBelowRoot_bijective cnt).injective (a₁ := (k, bit)) (a₂ := (k', bit'))
        simpa using hinj (Subtype.ext (hchild.trans hchild'.symm))
      obtain rfl : m = m' := Fin.ext ((nodeKind_eq_interior.1 hmk).trans (nodeKind_eq_interior.1 hmk').symm)
      rw [ih hm hm']

/-- The code index and the paths to the Terminals are the same thing (R120). -/
theorem codeword_eq_some_iff {cnt : FreqTable} {v : Byte} {c : BitSeq} :
    (build cnt).2.codeword v = some c ↔ ∃ j, descend (buildNodes cnt) rootIdx c = some j ∧ nodeKind j = .terminal v := by
  refine ⟨codeword_path, fun ⟨j, hj, hv⟩ => ?_⟩
  obtain ⟨code, hcode⟩ := exists_code cnt
  obtain ⟨j', hj', hv'⟩ := codeword_path (hcode v)
  obtain rfl : j' = j := Fin.ext ((nodeKind_eq_terminal.1 hv').trans (nodeKind_eq_terminal.1 hv).symm)
  rw [path_unique hj hj', hcode v]

/-- Indices fall along a path (R50), so `i − 255` bits from node `i` are enough to reach a Terminal. -/
theorem exists_prefix_to_terminal (cnt : FreqTable) (q : BitSeq) (i : NodeIdx) (h : i.val ≤ 255 + q.length) :
    ∃ c j v, c <+: q ∧ descend (buildNodes cnt) i c = some j ∧ nodeKind j = .terminal v := by
  induction q generalizing i with
  | nil => exact ⟨[], i, _, List.prefix_refl _, rfl, nodeKind_terminal (Nat.lt_succ_of_le h)⟩
  | cons bit q ih =>
    cases hk : nodeKind i with
    | terminal v => exact ⟨[], i, v, List.nil_prefix, rfl, hk⟩
    | interior k =>
      have hlt := child_lt_parent cnt k bit
      have hik := nodeKind_eq_interior.1 hk
      rw [List.length_cons] at h
      obtain ⟨c, j, v, hc, hd, hv⟩ := ih ((buildNodes cnt)[k].child bit) (by omega)
      exact ⟨bit :: c, j, v, List.cons_prefix_cons.2 ⟨rfl, hc⟩, descend_cons.2 ⟨k, hk, hd⟩, hv⟩

/-- No path to a Terminal goes on to another. -/
theorem codeword_prefix_free {cnt : FreqTable} {u v : Byte} {cu cv : BitSeq} (hu : (build cnt).2.codeword u = some cu)
    (hv : (build cnt).2.codeword v = some cv) (h : cu <+: cv) : u = v := by
  obtain ⟨i, hi, hiu⟩ := codeword_eq_some_iff.1 hu
  obtain ⟨j, hj, hjv⟩ := codeword_eq_some_iff.1 hv
  obtain ⟨rest, rfl⟩ := h
  rw [descend_append, hi] at hj
  obtain ⟨-, rfl⟩ := descend_terminal hiu hj
  simpa [hiu] using hjv

/-- Settles O29: a Terminal has no path on (`codeword_prefix_free`), and 255 bits from the root reach one
(`exists_prefix_to_terminal`), whose codeword is that path (`codeword_eq_some_iff`). -/
theorem codeIsPrefixFreeAndComplete : Obligations.CodeIsPrefixFreeAndComplete := by
  intro cnt
  refine ⟨fun u v cu cv => codeword_prefix_free, fun q hq => ?_⟩
  obtain ⟨c, j, v, hc, hj⟩ := exists_prefix_to_terminal cnt q rootIdx (Nat.add_le_add_left hq 255)
  exact ⟨v, c, codeword_eq_some_iff.2 ⟨j, hj⟩, hc⟩

end Sys2Proof.Proofs
end

section
/-! PROOFS. The family of spec/40_bitbuffer.md: the laws of the BitBuffer operations (R101), and for each command of unit B the
words it has, what it does and answers, and the words with its `fn` that are refused (R91 to R99). -/

namespace Sys2Proof.Proofs

open Sys2Proof Sys2Proof.Machine Sys2Proof.Safety Sys2Proof.Laws

/-! ### The BitBuffer operations (R101) -/

theorem bbPopFront_pushFront (q : BitSeq) (bit : Bit) : bbPopFront (bbPushFront q bit) = (some bit, q) := rfl

theorem bbPopBack_pushBack (q : BitSeq) (bit : Bit) : bbPopBack (bbPushBack q bit) = (some bit, q) := by
  simp [bbPopBack, bbPushBack]

theorem bbAppendBytes_length (q : BitSeq) (ys : ByteSeq) : (bbAppendBytes q ys).length = q.length + 8 * ys.length := by
  rw [bbAppendBytes, List.length_append, flatMap_bits8_length]

theorem bbAppendBytes_append (q : BitSeq) (ys zs : ByteSeq) :
    bbAppendBytes q (ys ++ zs) = bbAppendBytes (bbAppendBytes q ys) zs := by
  simp [bbAppendBytes]

theorem bbAppendBytes_singleton (q : BitSeq) (y : Byte) :
    bbAppendBytes q [y] = q ++ [y[7], y[6], y[5], y[4], y[3], y[2], y[1], y[0]] := rfl

theorem bbToBytes_length (q : BitSeq) : (bbToBytes q).length = (q.length + 7) / 8 := packBytes_length _ _

/-- Unpacking undoes packing up to the padding (law 4). -/
theorem flatMap_bbToBytes (q : BitSeq) : (bbToBytes q).flatMap bits8 = q ++ zeros ((8 - q.length % 8) % 8) := by
  have hpad : 8 * ((q.length + 7) / 8) - q.length = (8 - q.length % 8) % 8 := by omega
  have hlen : (q ++ zeros ((8 - q.length % 8) % 8)).length = 8 * ((q.length + 7) / 8) := by
    rw [List.length_append, zeros, List.length_replicate]
    omega
  rw [bbToBytes, hpad, flatMap_packBytes hlen.ge, List.take_of_length_le hlen.le]

/-- Packing undoes unpacking (law 3): bytes that expand to the same bits are the same. -/
theorem bbToBytes_flatMap (ys : ByteSeq) : bbToBytes (ys.flatMap bits8) = ys := by
  apply flatMap_bits8_inj
  rw [flatMap_bbToBytes, flatMap_bits8_length, Nat.mul_mod_right]
  exact List.append_nil _

/-- Packing goes over an aligned first part (law 6), which takes no padding. -/
theorem bbToBytes_append {q : BitSeq} (hq : q.length % 8 = 0) (r : BitSeq) :
    bbToBytes (q ++ r) = bbToBytes q ++ bbToBytes r := by
  have hlen : (q ++ r).length % 8 = r.length % 8 := by
    rw [List.length_append]
    omega
  have hq' : (bbToBytes q).flatMap bits8 = q := by
    rw [flatMap_bbToBytes, hq]
    exact List.append_nil q
  apply flatMap_bits8_inj
  rw [List.flatMap_append, hq', flatMap_bbToBytes, flatMap_bbToBytes, hlen, List.append_assoc]

/-- Bit `7 − k` of packed byte `j` is the bit at place `8j + k`, and 0 beyond the end (R96). -/
theorem bbToBytes_getLsbD {q : BitSeq} {j k : Nat} {y : Byte} (hy : (bbToBytes q)[j]? = some y) (hk : k < 8) :
    y.getLsbD (7 - k) = q.getD (8 * j + k) false := by
  have hbit := flatMap_bits8_getElem? hy hk
  rw [flatMap_bbToBytes] at hbit
  rw [List.getD_eq_getElem?_getD]
  rcases Nat.lt_or_ge (8 * j + k) q.length with hin | hout
  · rw [List.getElem?_append_left hin] at hbit
    rw [hbit, Option.getD_some]
  · rw [List.getElem?_append_right hout, zeros, List.getElem?_replicate] at hbit
    rw [List.getElem?_eq_none hout, Option.getD_none]
    split at hbit <;> simp_all

theorem bbPopFront_fst (q : BitSeq) : (bbPopFront q).1 = q.head? := by cases q <;> rfl

/-- Settles O19, law by law; laws 3 and 6 from law 4 (`flatMap_bbToBytes`), since bytes are determined by their bits,
and law 7 from what stands at each place of expanded bytes. -/
theorem bitBufferLaws : Obligations.BitBufferLaws := by
  refine ⟨fun q bit ys => ⟨List.length_append, List.length_cons, bbAppendBytes_length q ys⟩,
    fun q bit => ⟨bbPopFront_pushFront q bit, bbPopBack_pushBack q bit⟩, bbToBytes_flatMap, flatMap_bbToBytes,
    bbToBytes_length, fun q r hq => bbToBytes_append hq r, fun ys j y k hy hk => ?_⟩
  rw [popFront_iterate, bbPopFront_fst, List.head?_drop]
  exact flatMap_bits8_getElem? hy hk

/-! ### The words of unit B's commands (R71, R73, R76) -/

theorem sel_fn_inj {sel sel' : BufSel} {fn fn' : BitVec 3} : sel.bit ++ fn = sel'.bit ++ fn' ↔ sel = sel' ∧ fn = fn' := by
  cases sel <;> cases sel' <;> (revert fn fn'; decide)

/-- `s` of a word is its bit 11 (R76). -/
theorem sel_wordOf (u : BitVec 4) (sel : BufSel) (fn : BitVec 3) (a : Byte) :
    (if (wordOf u (sel.bit ++ fn) a).getLsbD 11 then BufSel.bb1 else .bb0) = sel := by
  refine (selField_wordOf u (sel.bit ++ fn) a).trans ?_
  cases sel <;> (revert fn; decide)

/-- A word under a mask that leaves out `s` is the row of an `fn`. -/
theorem and_eq_row_iff (u : BitVec 4) (sel : BufSel) (fn fn' : BitVec 3) (a mask arg : Byte) :
    wordOf u (sel.bit ++ fn) a &&& wordOf 15 7 mask = wordOfB .bb0 fn' arg ↔ u = 1 ∧ fn = fn' ∧ a &&& mask = arg := by
  have h : 0#1 ++ fn = BufSel.bb0.bit ++ fn' ↔ fn = fn' := by
    rw [show 0#1 = BufSel.bb0.bit from rfl, sel_fn_inj]
    exact and_iff_right rfl
  simp only [wordOfB, wordOf_and, wordOf_inj, BitVec.ofNat_eq_ofNat, and_fifteen, sel_fn_and_seven, h]

/-- The words of a command: the row decides the bits of `arg` under the mask, and the operand, by `P`, the others. -/
theorem wordOfB_eq_iff_of_arg {arg mask row : Byte} {P : Byte → Prop} (harg : ∀ a, arg = a ↔ a &&& mask = row ∧ P a)
    (cw : CmdWord) (sel : BufSel) (fn : BitVec 3) :
    wordOfB sel fn arg = cw ↔ cw &&& wordOf 15 7 mask = wordOfB .bb0 fn row ∧
      (sel = if cw.getLsbD 11 then .bb1 else .bb0) ∧ P (argField cw) := by
  obtain ⟨u, f, a, rfl⟩ := exists_wordOf cw
  obtain ⟨sel', fn', rfl⟩ := exists_sel_fn f
  rw [and_eq_row_iff, sel_wordOf, argField_wordOf, wordOfB, wordOf_inj, sel_fn_inj, harg,
    eq_comm (a := u), eq_comm (a := fn')]
  tauto

/-- The words of a command with a fixed `arg` (formats N and X). -/
theorem wordOfB_eq_iff (cw : CmdWord) (sel : BufSel) (fn : BitVec 3) (arg : Byte) :
    wordOfB sel fn arg = cw ↔ cw &&& 0xF7FF = wordOfB .bb0 fn arg ∧ sel = if cw.getLsbD 11 then .bb1 else .bb0 := by
  have harg (a : Byte) : arg = a ↔ a &&& 255#8 = arg ∧ True := by rw [and_255, and_true, eq_comm]
  have h := wordOfB_eq_iff_of_arg harg cw sel fn
  rwa [and_true] at h

/-- The words of a command with a bit operand (format T). -/
theorem wordOfB_bitArg_eq_iff (cw : CmdWord) (sel : BufSel) (fn : BitVec 3) (bit : Bit) :
    wordOfB sel fn (bitArg bit) = cw ↔
      cw &&& 0xF7FE = wordOfB .bb0 fn 0 ∧ (sel = if cw.getLsbD 11 then .bb1 else .bb0) ∧ bit = cw.getLsbD 0 := by
  have harg : ∀ a : Byte, bitArg bit = a ↔ a &&& 254#8 = 0#8 ∧ bit = a.getLsbD 0 := by revert bit; decide
  have hbit : (argField cw).getLsbD 0 = cw.getLsbD 0 := BitVec.getLsbD_extractLsb' ..
  rw [← hbit]
  exact wordOfB_eq_iff_of_arg harg cw sel fn

/-- The words of a command with a byte operand (format Y). -/
theorem wordOfB_byte_eq_iff (cw : CmdWord) (sel : BufSel) (fn : BitVec 3) (y : Byte) :
    wordOfB sel fn y = cw ↔
      cw &&& 0xF700 = wordOfB .bb0 fn 0 ∧ (sel = if cw.getLsbD 11 then .bb1 else .bb0) ∧ y = cw.extractLsb' 0 8 := by
  have harg (a : Byte) : y = a ↔ a &&& 0#8 = 0#8 ∧ y = a := by simp
  exact wordOfB_eq_iff_of_arg harg cw sel fn

/-- A unit B word that does not match the row of its `fn` has a bit set that must be 0, so it has no meaning and unit B refuses
it (R77, R171). -/
theorem otherWordsRefused (fn : BitVec 3) :
    OtherWordsRefused fn.toNat (wordOfB .bb0 fn 0) (wordOf 15 7 (mustBeZeroMask (wordOfB .bb0 fn 0))) := by
  intro cw s hunit hfn hrow
  obtain ⟨u, f, a, rfl⟩ := exists_wordOf cw
  obtain ⟨sel, fn', rfl⟩ := exists_sel_fn f
  rw [unitField_wordOf] at hunit
  rw [fnField_wordOf, extract_fn_sel_fn] at hfn
  obtain rfl : u = 1#4 := BitVec.eq_of_toNat_eq hunit
  obtain rfl : fn' = fn := BitVec.eq_of_toNat_eq hfn
  rw [Ne, and_eq_row_iff] at hrow
  have hmask : mustBeZeroMask (wordOf 1#4 (sel.bit ++ fn') 0) = mustBeZeroMask (wordOfB .bb0 fn' 0) := by
    simp [mustBeZeroMask, wordOfB]
  have hb : answerer (wordOf 1#4 (sel.bit ++ fn') a) = some .b := (answerer_eq_iff _).1.2 (extract_unit_wordOf ..)
  rw [accept_of_meaningless (meaningless_of_argB sel fun hclear => hrow ⟨rfl, rfl, hmask ▸ hclear⟩), hb]
  rfl

/-! ### What the commands do -/

/-- A command that writes its own buffer and responds. -/
theorem answersB_set (s : State) (sel : BufSel) (q : BitSeq) (r : Response) :
    let t := { s with b := s.b.set sel q }.respondB r
    t.b.get sel = q ∧ t.b.get sel.other = s.b.get sel.other ∧ AnswersB s t r :=
  ⟨set_get_self .., set_get_other .., answersB_respondB ..⟩

/-- A command that writes both buffers and responds. -/
theorem answersB_set_set (s : State) (sel : BufSel) (q q' : BitSeq) (r : Response) :
    let t := { s with b := (s.b.set sel q).set sel.other q' }.respondB r
    t.b.get sel = q ∧ t.b.get sel.other = q' ∧ AnswersB s t r :=
  ⟨(set_other_get ..).trans (set_get_self ..), set_get_self .., answersB_respondB ..⟩

theorem popResponse_some (bit : Bit) : popResponse (some bit) = ⟨.ok, if bit then 1 else 0, []⟩ := by cases bit <;> rfl

/-- The body of a pop command, from either end. -/
def popBody (pop : BitSeq → Option Bit × BitSeq) (sel : BufSel) (u : UnitB) : UnitB × Response :=
  (u.set sel (pop (u.get sel)).2, popResponse (pop (u.get sel)).1)

theorem exec_bpopf_eq (sel : BufSel) (s : State) : exec (.bpopf sel) s = runB (popBody bbPopFront sel) s := exec_bpopf sel s

theorem exec_bpopb_eq (sel : BufSel) (s : State) : exec (.bpopb sel) s = runB (popBody bbPopBack sel) s := exec_bpopb sel s

section
variable {pop : BitSeq → Option Bit × BitSeq} {sel : BufSel} {s t : State} {bit : Bit} {q : BitSeq}

/-- A pop that finds no bit (R175). -/
theorem pop_absent (h : pop (s.b.get sel) = (none, s.b.get sel)) :
    ∃ t, runB (popBody pop sel) s = .next t ∧ t.b = s.b ∧ AnswersB s t ⟨.absent, 0, []⟩ := by
  refine ⟨_, runB_eq .., ?_⟩
  rw [popBody, h, set_get_same]
  exact ⟨rfl, answersB_respondB s s.b Response.absent⟩

/-- A pop that finds a bit. -/
theorem pop_some (h : pop (s.b.get sel) = (some bit, q)) :
    ∃ t, runB (popBody pop sel) s = .next t ∧ t.b.get sel = q ∧ t.b.get sel.other = s.b.get sel.other ∧
      AnswersB s t ⟨.ok, if bit then 1 else 0, []⟩ := by
  refine ⟨_, runB_eq .., ?_⟩
  rw [popBody, h, popResponse_some]
  exact answersB_set s sel q _

/-- A pop that finds the bit a push put there restores the unit. -/
theorem pop_after_push (h : pop (t.b.get sel) = (some bit, s.b.get sel)) (hother : t.b.get sel.other = s.b.get sel.other) :
    ∃ u, runB (popBody pop sel) t = .next u ∧ u.b = s.b ∧ u.respB = t.respB ++ [⟨.ok, if bit then 1 else 0, []⟩] := by
  obtain ⟨u, hu, hself, hother', hresp, -⟩ := pop_some h
  exact ⟨u, hu, unitB_ext sel hself (hother'.trans hother), hresp⟩

end

/-- Settles O10: the row of format T with `fn` 0, and one write of the selected buffer. -/
theorem bpushbAddsAtTheBack : Obligations.BpushbAddsAtTheBack :=
  ⟨fun cw sel bit => decode_eq_ok_iff.trans (wordOfB_bitArg_eq_iff cw sel 0 bit),
    fun sel bit s => ⟨_, exec_bpushb sel bit s, answersB_set s sel _ _⟩, otherWordsRefused 0⟩

/-- Settles O11: the row of format T with `fn` 1, and one write of the selected buffer. -/
theorem bpushfAddsAtTheFront : Obligations.BpushfAddsAtTheFront :=
  ⟨fun cw sel bit => decode_eq_ok_iff.trans (wordOfB_bitArg_eq_iff cw sel 1 bit),
    fun sel bit s => ⟨_, exec_bpushf sel bit s, answersB_set s sel _ _⟩, otherWordsRefused 1⟩

/-- Settles O12: a pop of the front (`pop_absent`, `pop_some`), which finds what `BPUSHF` put there. -/
theorem bpopfTakesTheFrontBit : Obligations.BpopfTakesTheFrontBit := by
  refine ⟨fun cw sel => decode_eq_ok_iff.trans (wordOfB_eq_iff cw sel 2 0), fun sel s h => ?_, fun sel s bit q h => ?_,
    otherWordsRefused 2, fun sel bit s t h => ?_⟩ <;> rw [exec_bpopf_eq]
  · exact pop_absent (by rw [h]; rfl)
  · exact pop_some (by rw [h]; rfl)
  · cases h
    exact pop_after_push (congrArg bbPopFront (set_get_self ..)) (set_get_other ..)

/-- Settles O13: a pop of the back (`pop_absent`, `pop_some`), which finds what `BPUSHB` put there; one bit is front and back. -/
theorem bpopbTakesTheBackBit : Obligations.BpopbTakesTheBackBit := by
  refine ⟨fun cw sel => decode_eq_ok_iff.trans (wordOfB_eq_iff cw sel 3 0), fun sel s h => ?_, fun sel s bit q h => ?_,
    otherWordsRefused 3, fun sel bit s t h => ?_, fun sel s bit h => ?_⟩ <;> rw [exec_bpopb_eq]
  · exact pop_absent (by rw [h]; rfl)
  · exact pop_some (by rw [h]; exact bbPopBack_pushBack q bit)
  · cases h
    exact pop_after_push ((congrArg bbPopBack (set_get_self ..)).trans (bbPopBack_pushBack ..)) (set_get_other ..)
  · rw [exec_bpopf_eq, runB_eq, runB_eq, popBody, popBody, h]
    rfl

/-- Settles O14: the row of format Y, and one write of the selected buffer. -/
theorem bappbAppendsAByte : Obligations.BappbAppendsAByte :=
  ⟨fun cw sel y => decode_eq_ok_iff.trans (wordOfB_byte_eq_iff cw sel 4 y),
    fun sel y s => ⟨_, exec_bappb sel y s, bbAppendBytes_singleton _ y ▸ answersB_set s sel _ _⟩,
    fun q ys zs => ⟨List.append_nil q, bbAppendBytes_append q ys zs⟩⟩

/-- Settles O15: a pure read, its bytes by `bbToBytes_length` and `bbToBytes_getLsbD`. -/
theorem bpackPacksWithZeroPadding : Obligations.BpackPacksWithZeroPadding :=
  ⟨fun cw sel => decode_eq_ok_iff.trans (wordOfB_eq_iff cw sel 5 0),
    fun sel s => ⟨_, _, exec_bpack sel s, rfl, answersB_respondB s s.b _, bbToBytes_length _, fun _ _ _ => bbToBytes_getLsbD⟩,
    otherWordsRefused 5⟩

/-- Settles O16: a pure read. -/
theorem blenCountsBits : Obligations.BlenCountsBits :=
  ⟨fun cw sel => decode_eq_ok_iff.trans (wordOfB_eq_iff cw sel 6 0),
    fun sel s => ⟨_, exec_blen sel s, rfl, answersB_respondB s s.b _⟩, otherWordsRefused 6⟩

/-- Settles O17: one write of each buffer, the other one's empty. -/
theorem bappendDrainsTheOther : Obligations.BappendDrainsTheOther :=
  ⟨fun cw sel => decode_eq_ok_iff.trans (wordOfB_eq_iff cw sel 7 0),
    fun sel s => ⟨_, exec_bappend sel s, answersB_set_set s sel _ _ _⟩, otherWordsRefused 7,
    fun sel => by cases sel <;> decide⟩

/-- Settles O18: one write of each buffer, the other one's what it held; to empty it after is `BAPPEND`'s own second write. -/
theorem bcopyKeepsTheOther : Obligations.BcopyKeepsTheOther := by
  refine ⟨fun cw sel => decode_eq_ok_iff.trans (wordOfB_eq_iff cw sel 7 1),
    fun sel s => ⟨_, exec_bcopy sel s, answersB_set_set s sel _ _ _⟩, otherWordsRefused 7, fun sel s t u ht hu => ?_⟩
  cases ht
  cases hu
  exact (set_set ..).symm

end Sys2Proof.Proofs
end

section
/-! PROOFS. The family of spec/41_freqtable_treebuilder.md: the frequency table and its header (R111 to R115); what each merge of a
built tree takes, in the store alone (R116 to R119), and from it the weights and heights (R121, R124), the codewords by their length
(R120, R122), and the balanced tree of equal counters (R125). -/

namespace Sys2Proof.Proofs

open Sys2Proof Sys2Proof.Machine Sys2Proof.Safety Sys2Proof.Laws

/-! ### The frequency table and its header (R111 to R115) -/

theorem ftPush_count_same (cnt : FreqTable) (v : Byte) : (ftPush cnt v).count v = cnt.count v + 1 := by
  simp [ftPush, FreqTable.count]

theorem ftPush_count_other (cnt : FreqTable) {u v : Byte} (h : u ≠ v) : (ftPush cnt v).count u = cnt.count u := by
  have hne : v.toNat ≠ u.toNat := fun e => h (BitVec.eq_of_toNat_eq e.symm)
  simp [ftPush, FreqTable.count, Vector.getElem_set_ne _ _ hne]

theorem count_le_ftTotal (cnt : FreqTable) (v : Byte) : (cnt.count v).toNat ≤ ftTotal cnt := by
  obtain ⟨rest, hrest⟩ := ftTotal_set cnt v
  have hnow := hrest (cnt.count v)
  rw [FreqTable.count, Vector.set_getElem_self] at hnow
  rw [FreqTable.count, hnow]
  exact Nat.le_add_left ..

theorem count_add_one_toNat {c : Count} (h : c ≠ 0xFFFFFFFFFFFFFFFF) : (c + 1).toNat = c.toNat + 1 :=
  by bv_omega

/-- Settles O21: a push writes one counter, and the threshold bounds the total of a unit E that still counts (R33 line 2). -/
theorem pushCountsOneByte : Obligations.PushCountsOneByte := by
  refine ⟨fun cnt v => ⟨ftPush_count_same cnt v, fun u hu => ftPush_count_other cnt hu, fun h => ?_, fun h => ?_⟩,
    fun s v hinv hs htop => ?_⟩
  · rw [ftPush_count_same]
    exact count_add_one_toNat h
  · rw [ftPush_count_same, h]
    rfl
  · obtain ⟨-, -, -, hpend, hle⟩ := hinv.encoder.collecting hs
    have hv := count_le_ftTotal s.e.cnt v
    rw [htop, ← hpend] at hv
    exact absurd (hv.trans hle) (Nat.not_le.2 s.threshold.isLt)

theorem ftSerialize_length (cnt : FreqTable) : (ftSerialize cnt).length = 2048 := by
  rw [ftSerialize, flatMap_be64_length, Vector.length_toList]

theorem ftDeserialize_ftSerialize (cnt : FreqTable) : ftDeserialize (ftSerialize cnt) = cnt := by
  have h := readCounts_flatMap cnt.toList []
  rw [Vector.length_toList, List.append_nil] at h
  exact Vector.toList_inj.1 h

theorem ftSerialize_ftDeserialize {hdr : ByteSeq} (h : hdr.length = 2048) : ftSerialize (ftDeserialize hdr) = hdr :=
  flatMap_readCounts (n := 256) h

/-- Byte `k` of a serialized counter (R113). -/
theorem ftSerialize_getElem? (cnt : FreqTable) (v : Byte) {k : Nat} (hk : k < 8) :
    (ftSerialize cnt)[8 * v.toNat + k]? = some ((cnt.count v).extractLsb' (56 - 8 * k) 8) := by
  have hv : cnt.toList[v.toNat]? = some (cnt.count v) := by
    simp [FreqTable.count, v.isLt]
  exact flatMap_be64_getElem? hv hk

/-- Settles O23: counters and bytes read back from one another (`readCounts_flatMap`, `flatMap_readCounts`). -/
theorem headerRoundTrip : Obligations.HeaderRoundTrip :=
  ⟨fun _ => ftSerialize_ftDeserialize, ftDeserialize_ftSerialize⟩

/-- Settles O22: the bytes of a serialized counter (`ftSerialize_getElem?`); a header is the serialization of what is read from
it. -/
theorem headerBytesAreBigEndianCounters : Obligations.HeaderBytesAreBigEndianCounters := by
  refine ⟨fun cnt => ⟨ftSerialize_length cnt, fun v k => ftSerialize_getElem? cnt v⟩, fun hdr v k hlen hk => ?_⟩
  rw [← ftSerialize_getElem? (ftDeserialize hdr) v hk, ftSerialize_ftDeserialize hlen]

/-! ### The priority order (R117) -/

section
variable {cnt : FreqTable} {store : NodeStore} {i j k : NodeIdx}

theorem keyBefore_trans (hij : KeyBefore cnt store i j) (hjk : KeyBefore cnt store j k) : KeyBefore cnt store i k := by
  unfold KeyBefore at *
  simp only [Fin.lt_def] at *
  omega

theorem keyBefore_asymm (hij : KeyBefore cnt store i j) : ¬ KeyBefore cnt store j i := by
  unfold KeyBefore at *
  simp only [Fin.lt_def] at *
  omega

theorem keyBefore_of_weight_le (hw : weightOf cnt store i ≤ weightOf cnt store j) (hlt : i < j) : KeyBefore cnt store i j := by
  rcases hw.lt_or_eq with hw | hw
  · exact .inl hw
  · exact .inr ⟨hw, hlt⟩

theorem weight_le_of_keyBefore (hij : KeyBefore cnt store i j) : weightOf cnt store i ≤ weightOf cnt store j := by
  rcases hij with hw | ⟨hw, -⟩
  · exact hw.le
  · exact hw.le

end

/-! ### Nodes by index -/

/-- Interior node `k` as a node index (R50). -/
def interiorIdx (k : Fin 255) : NodeIdx := ⟨256 + k.val, by omega⟩

theorem nodeKind_interiorIdx (k : Fin 255) : nodeKind (interiorIdx k) = .interior k := nodeKind_eq_interior.2 rfl

theorem eq_interiorIdx {i : NodeIdx} {k : Fin 255} (h : nodeKind i = .interior k) : i = interiorIdx k :=
  Fin.ext (nodeKind_eq_interior.1 h)

theorem heightOf_terminal (store : NodeStore) {i : NodeIdx} {v : Byte} (h : nodeKind i = .terminal v) : heightOf store i = 0 := by
  rw [heightOf, h]

theorem heightOf_interior (store : NodeStore) {i : NodeIdx} {k : Fin 255} (h : nodeKind i = .interior k) :
    heightOf store i = store[k].height.val := by
  rw [heightOf, h]

theorem weightOf_terminal (cnt : FreqTable) (store : NodeStore) {i : NodeIdx} {v : Byte} (h : nodeKind i = .terminal v) :
    weightOf cnt store i = (cnt.count v).toNat := by
  rw [weightOf, h]

theorem weightOf_interior (cnt : FreqTable) (store : NodeStore) {i : NodeIdx} {k : Fin 255} (h : nodeKind i = .interior k) :
    weightOf cnt store i = store[k].weight.toNat := by
  rw [weightOf, h]

/-! ### The queue holds the unmerged nodes (R118) -/

/-- The children of a merge's record are the two nodes popped. -/
theorem mergedNode_child_iff {a b : QueueItem} {i : NodeIdx} :
    (∃ bit, (mergedNode a b).child bit = i) ↔ i = a.index ∨ i = b.index := by
  constructor
  · rintro ⟨bit, rfl⟩
    rcases children_eq a b with ⟨h, -⟩ | ⟨h, -⟩ <;> cases bit <;> simp [Node.child, mergedNode, h]
  · rintro (rfl | rfl)
    · exact mergedNode_child (.inl rfl)
    · exact mergedNode_child (.inr rfl)

theorem unmerged_zero {store : NodeStore} {i : NodeIdx} : Unmerged store 0 i ↔ i.val < 256 :=
  ⟨fun h => h.1, fun h => ⟨h, fun j _ hj => absurd hj (Fin.not_lt_zero j)⟩⟩

/-- What a merge does to the unmerged nodes: it adds its own node and takes its two children. -/
theorem unmerged_succ {cnt : FreqTable} {k : Fin 255} (hk : k.val + 1 < 255) {i : NodeIdx} :
    Unmerged (buildNodes cnt) ⟨k.val + 1, hk⟩ i ↔
      (Unmerged (buildNodes cnt) k i ∨ i = interiorIdx k) ∧ ¬ ∃ bit, (buildNodes cnt)[k].child bit = i := by
  constructor
  · rintro ⟨hlt, hno⟩
    refine ⟨?_, fun ⟨bit, hbit⟩ => hno k bit (Nat.lt_succ_self k.val) hbit⟩
    by_cases hi : i = interiorIdx k
    · exact .inr hi
    · have hne : i.val ≠ 256 + k.val := fun h => hi (Fin.ext h)
      simp only at hlt
      exact .inl ⟨by omega, fun j bit hj => hno j bit (Nat.lt_succ_of_lt hj)⟩
  · rintro ⟨hi, hno⟩
    have hold : i.val < 256 + (k.val + 1) ∧ ∀ (j : Fin 255) (bit : Bit), j < k → (buildNodes cnt)[j].child bit ≠ i := by
      rcases hi with ⟨hlt, hun⟩ | rfl
      · exact ⟨by omega, hun⟩
      · refine ⟨Nat.lt_succ_self _, fun j bit hj hchild => ?_⟩
        have hlt := child_lt_parent cnt j bit
        rw [hchild] at hlt
        have : k.val < j.val := Nat.lt_of_add_lt_add_left hlt
        exact absurd hj (Nat.not_lt_of_gt this)
    refine ⟨hold.1, fun j bit hj hchild => ?_⟩
    rcases (Nat.lt_succ_iff_lt_or_eq.1 hj) with hj | hj
    · exact hold.2 j bit hj hchild
    · obtain rfl : j = k := Fin.ext hj
      exact hno ⟨bit, hchild⟩

/-- What the queue holds before merge `k`: the nodes of `Unmerged`. -/
def HoldsUnmerged (store : NodeStore) (k : Fin 255) (q : List QueueItem) : Prop :=
  ∀ i, Unmerged store k i ↔ i ∈ q.map QueueItem.index

/-- Record `k` is that of the merge of the two nodes popped. -/
theorem record_eq_mergedNode {cnt : FreqTable} {k : Fin 255} {a b : QueueItem} {q : List QueueItem}
    (hq : QueueAt cnt (buildNodes cnt) (254 - k.val + 1) (a :: b :: q)) : (buildNodes cnt)[k] = mergedNode a b := by
  simpa [show 254 - (254 - k.val) = k.val by omega] using (queueAt_merge hq).1

theorem holdsUnmerged_start (cnt : FreqTable) : HoldsUnmerged (buildNodes cnt) 0 (pqSeed cnt) := by
  intro i
  rw [unmerged_zero]
  constructor
  · intro hi
    obtain ⟨x, hx, hxi⟩ := exists_mem_pqSeed cnt (BitVec.ofNat 8 i.val)
    have hval : x.index.val = i.val := by simpa [Nat.mod_eq_of_lt hi] using hxi
    exact List.mem_map.2 ⟨x, hx, Fin.ext hval⟩
  · intro hi
    obtain ⟨x, hx, rfl⟩ := List.mem_map.1 hi
    exact (queueAt_start cnt).index_lt x hx

theorem holdsUnmerged_merge {cnt : FreqTable} {k : Fin 255} {a b : QueueItem} {q : List QueueItem} (hk : k.val + 1 < 255)
    (hq : QueueAt cnt (buildNodes cnt) (254 - k.val + 1) (a :: b :: q))
    (hun : HoldsUnmerged (buildNodes cnt) k (a :: b :: q)) :
    HoldsUnmerged (buildNodes cnt) ⟨k.val + 1, hk⟩ (pqInsert (mergedItem (254 - k.val) a b) q) := by
  have hrec := record_eq_mergedNode hq
  have hnew : (mergedItem (254 - k.val) a b).index = interiorIdx k := Fin.ext (by simp only [mergedItem, interiorIdx]; omega)
  have hfresh : ∀ x ∈ a :: b :: q, x.index ≠ interiorIdx k := fun x hx h => by
    have := hq.index_lt x hx
    rw [h] at this
    simp only [interiorIdx] at this
    omega
  have hnodup := hq.nodup
  simp only [List.map_cons, List.nodup_cons, List.mem_cons, not_or] at hnodup
  obtain ⟨⟨-, ha⟩, hb, -⟩ := hnodup
  intro i
  rw [unmerged_succ, hun, hrec, mergedNode_child_iff, ((pqInsert_perm _ _).map _).mem_iff]
  simp only [List.map_cons, List.mem_cons, hnew]
  constructor
  · tauto
  · rintro (rfl | hi)
    · have hane := hfresh a (by simp)
      have hbne := hfresh b (by simp)
      exact ⟨.inr rfl, fun h => h.elim (hane ∘ Eq.symm) (hbne ∘ Eq.symm)⟩
    · refine ⟨.inl (.inr (.inr hi)), ?_⟩
      rintro (rfl | rfl)
      · exact ha hi
      · exact hb hi

/-- Before every merge there is such a queue. -/
theorem exists_queue_of_unmerged (cnt : FreqTable) (k : Fin 255) :
    ∃ a b q, QueueAt cnt (buildNodes cnt) (254 - k.val + 1) (a :: b :: q) ∧ HoldsUnmerged (buildNodes cnt) k (a :: b :: q) := by
  obtain ⟨k, hk⟩ := k
  induction k with
  | zero =>
    obtain ⟨a, b, q, hq⟩ := queueAt_pops (queueAt_start cnt)
    exact ⟨a, b, q, hq ▸ queueAt_start cnt, hq ▸ holdsUnmerged_start cnt⟩
  | succ k ih =>
    obtain ⟨a, b, q, hq, hun⟩ := ih (by omega)
    have hnext := (queueAt_merge hq).2
    have hun' := holdsUnmerged_merge hk hq hun
    obtain ⟨n, hn⟩ : ∃ n, 254 - k = n + 1 := ⟨253 - k, by omega⟩
    simp only [hn] at hnext hun'
    obtain ⟨a', b', q', hq'⟩ := queueAt_pops hnext
    rw [hq'] at hnext hun'
    refine ⟨a', b', q', ?_, hun'⟩
    simpa only [show 254 - (k + 1) = n by omega] using hnext

/-! ### What a merge does, in the store alone (R116 to R119) -/

/-- Merge `k` takes `a` and then `b`. -/
structure Merges (cnt : FreqTable) (k : Fin 255) (a b : NodeIdx) : Prop where
  fst : Unmerged (buildNodes cnt) k a
  snd : Unmerged (buildNodes cnt) k b
  before : KeyBefore cnt (buildNodes cnt) a b
  least : ∀ c, Unmerged (buildNodes cnt) k c → c = a ∨ c = b ∨ KeyBefore cnt (buildNodes cnt) b c
  sides : ((buildNodes cnt)[k].left, (buildNodes cnt)[k].right) =
    if heightOf (buildNodes cnt) a < heightOf (buildNodes cnt) b then (b, a) else (a, b)
  height : (buildNodes cnt)[k].height.val = 1 + max (heightOf (buildNodes cnt) a) (heightOf (buildNodes cnt) b)
  weight : (buildNodes cnt)[k].weight.toNat = weightOf cnt (buildNodes cnt) a + weightOf cnt (buildNodes cnt) b

/-- The order of the queue is that of R117. -/
theorem keyBefore_of_before {cnt : FreqTable} {store : NodeStore} {n : Nat} {q : List QueueItem} (hq : QueueAt cnt store n q)
    {x y : QueueItem} (hx : x ∈ q) (hy : y ∈ q) (h : x.before y = true) : KeyBefore cnt store x.index y.index := by
  rw [KeyBefore, hq.weight x hx, hq.weight y hy]
  exact (before_iff x y).1 h

theorem queueAt_weight_lt {cnt : FreqTable} {store : NodeStore} {n : Nat} {a b : QueueItem} {q : List QueueItem}
    (hq : QueueAt cnt store n (a :: b :: q)) : a.weight + b.weight < 2 ^ 72 := by
  have htot := hq.total
  have hle := ftTotal_le cnt
  simp only [List.map_cons, List.sum_cons] at htot
  omega

/-- Every merge takes two nodes, as the spec has it. -/
theorem exists_merges (cnt : FreqTable) (k : Fin 255) : ∃ a b, Merges cnt k a b := by
  obtain ⟨a, b, q, hq, hun⟩ := exists_queue_of_unmerged cnt k
  have hrec := record_eq_mergedNode hq
  have ha : a ∈ a :: b :: q := by simp
  have hb : b ∈ a :: b :: q := by simp
  obtain ⟨hab, hin⟩ := List.pairwise_cons.1 hq.inOrder
  have hbq := (List.pairwise_cons.1 hin).1
  have hha := hq.height_le a ha
  have hhb := hq.height_le b hb
  refine ⟨a.index, b.index,
    { fst := (hun _).2 (List.mem_map_of_mem ha)
      snd := (hun _).2 (List.mem_map_of_mem hb)
      before := keyBefore_of_before hq ha hb (hab b (by simp))
      least := fun c hc => ?_
      sides := ?_
      height := ?_
      weight := ?_ }⟩
  · obtain ⟨x, hx, rfl⟩ := List.mem_map.1 ((hun c).1 hc)
    rcases List.mem_cons.1 hx with rfl | hx'
    · exact .inl rfl
    rcases List.mem_cons.1 hx' with rfl | hx'
    · exact .inr (.inl rfl)
    · exact .inr (.inr (keyBefore_of_before hq hb hx (hbq x hx')))
  · rw [hrec, hq.height a ha, hq.height b hb]
    rcases children_eq a b with ⟨h, hlt⟩ | ⟨h, hle⟩
    · simp [mergedNode, h, hlt]
    · simp [mergedNode, h, Nat.not_lt.2 hle]
  · rw [hrec, hq.height a ha, hq.height b hb]
    exact Nat.mod_eq_of_lt (by omega)
  · rw [hrec, hq.weight a ha, hq.weight b hb]
    exact (BitVec.toNat_ofNat ..).trans (Nat.mod_eq_of_lt (queueAt_weight_lt hq))

/-- Settles O25: the queue before a merge holds just the unmerged nodes, in order (`exists_merges`). -/
theorem everyMergeTakesTheTwoLeastKeys : Obligations.EveryMergeTakesTheTwoLeastKeys := by
  intro cnt k
  obtain ⟨a, b, h⟩ := exists_merges cnt k
  exact ⟨a, b, h.fst, h.snd, h.before, h.least, h.sides, h.height⟩

/-! ### Weights and heights of the built tree (R121, R124) -/

section
variable {cnt : FreqTable} {k : Fin 255} {a b : NodeIdx}

theorem merges_sides (h : Merges cnt k a b) :
    (heightOf (buildNodes cnt) a < heightOf (buildNodes cnt) b ∧ (buildNodes cnt)[k].left = b ∧ (buildNodes cnt)[k].right = a) ∨
    (heightOf (buildNodes cnt) b ≤ heightOf (buildNodes cnt) a ∧ (buildNodes cnt)[k].left = a ∧ (buildNodes cnt)[k].right = b) := by
  have hsides := h.sides
  split at hsides <;> obtain ⟨hl, hr⟩ := Prod.mk.inj hsides
  · next hlt => exact .inl ⟨hlt, hl, hr⟩
  · next hge => exact .inr ⟨Nat.not_lt.1 hge, hl, hr⟩

/-- The children of a merge's node are the two it took. -/
theorem merges_child_iff (h : Merges cnt k a b) {i : NodeIdx} : (∃ bit, (buildNodes cnt)[k].child bit = i) ↔ i = a ∨ i = b := by
  rw [eq_comm (a := i), eq_comm (a := i), Bool.exists_bool]
  rcases merges_sides h with ⟨-, rfl, rfl⟩ | ⟨-, rfl, rfl⟩
  · exact or_comm
  · exact Iff.rfl

end

theorem weight_eq_sum (cnt : FreqTable) (k : Fin 255) : (buildNodes cnt)[k].weight.toNat =
    weightOf cnt (buildNodes cnt) (buildNodes cnt)[k].left + weightOf cnt (buildNodes cnt) (buildNodes cnt)[k].right := by
  obtain ⟨a, b, h⟩ := exists_merges cnt k
  rcases merges_sides h with ⟨-, hl, hr⟩ | ⟨-, hl, hr⟩ <;> rw [h.weight, hl, hr]
  exact Nat.add_comm _ _

theorem left_height (cnt : FreqTable) (k : Fin 255) :
    heightOf (buildNodes cnt) (buildNodes cnt)[k].left + 1 = (buildNodes cnt)[k].height.val := by
  obtain ⟨a, b, h⟩ := exists_merges cnt k
  rcases merges_sides h with ⟨hlt, hl, -⟩ | ⟨hle, hl, -⟩ <;> rw [h.height, hl] <;> omega

theorem right_height_le_left (cnt : FreqTable) (k : Fin 255) :
    heightOf (buildNodes cnt) (buildNodes cnt)[k].right ≤ heightOf (buildNodes cnt) (buildNodes cnt)[k].left := by
  obtain ⟨a, b, h⟩ := exists_merges cnt k
  rcases merges_sides h with ⟨hlt, hl, hr⟩ | ⟨hle, hl, hr⟩ <;> rw [hl, hr]
  · exact hlt.le
  · exact hle

/-- After the last merge the queue holds the root alone (R118). -/
theorem queueAt_end (cnt : FreqTable) : ∃ x, QueueAt cnt (buildNodes cnt) 0 [x] ∧ x.index = rootIdx := by
  obtain ⟨a, b, q, hq, -⟩ := record_is_merge cnt rootPos
  obtain rfl : q = [] := by simpa [rootPos] using hq.length
  exact ⟨_, (queueAt_merge hq).2, rfl⟩

theorem weight_root (cnt : FreqTable) : weightOf cnt (buildNodes cnt) rootIdx = ftTotal cnt := by
  obtain ⟨x, hq, hx⟩ := queueAt_end cnt
  rw [← hx, hq.weight x (by simp), ← hq.total]
  simp

/-- A tree of 256 leaves has at least height 8. -/
theorem height_root_ge (cnt : FreqTable) : 8 ≤ heightOf (buildNodes cnt) rootIdx := by
  obtain ⟨x, hq, hx⟩ := queueAt_end cnt
  rw [← hx, hq.height x (by simp)]
  have hleaves : 2 ^ 8 ≤ 2 ^ x.height := by simpa using hq.leaves
  exact (Nat.pow_le_pow_iff_right Nat.one_lt_two).1 hleaves

/-- Settles O26: a merge adds exactly (`weight_eq_sum`), and the last queue keeps the total of the first (`weight_root`). -/
theorem weightsAreExactSums : Obligations.WeightsAreExactSums :=
  fun cnt => ⟨weight_eq_sum cnt, weight_root cnt, ftTotal_le cnt⟩

/-- Settles O27: the child order of a merge (`left_height`, `right_height_le_left`), and the leaves below the last queue's one
node (`height_root_ge`). -/
theorem tallerChildIsLeft : Obligations.TallerChildIsLeft :=
  fun cnt => ⟨fun k => ⟨left_height cnt k, right_height_le_left cnt k⟩, height_root_ge cnt,
    heightOf_interior (buildNodes cnt) nodeKind_root ▸ Nat.le_of_lt_succ (buildNodes cnt)[rootPos].height.isLt⟩

/-! ### Codewords and heights (R120, R121) -/

theorem child_height_lt (cnt : FreqTable) (k : Fin 255) (bit : Bit) :
    heightOf (buildNodes cnt) ((buildNodes cnt)[k].child bit) < (buildNodes cnt)[k].height.val := by
  have hl := left_height cnt k
  have hr := right_height_le_left cnt k
  cases bit
  · exact Nat.lt_of_succ_le hl.le
  · exact Nat.lt_of_succ_le (hl ▸ Nat.succ_le_succ hr)

/-- The height falls by 1 or more at every step of a path. -/
theorem path_length_add_height_le {cnt : FreqTable} {i j : NodeIdx} {p : BitSeq}
    (hp : descend (buildNodes cnt) i p = some j) :
    p.length + heightOf (buildNodes cnt) j ≤ heightOf (buildNodes cnt) i := by
  induction p generalizing i with
  | nil =>
    simp only [descend, Option.some.injEq] at hp
    subst hp
    exact (Nat.zero_add _).le
  | cons bit p ih =>
    obtain ⟨k, hk, hd⟩ := descend_cons.1 hp
    have hstep := child_height_lt cnt k bit
    have hrest := ih hd
    rw [heightOf_interior _ hk, List.length_cons]
    omega

theorem codeword_length_le {cnt : FreqTable} {v : Byte} {c : BitSeq} (h : (build cnt).2.codeword v = some c) :
    c.length ≤ heightOf (buildNodes cnt) rootIdx := by
  obtain ⟨j, hj, -⟩ := codeword_path h
  exact Nat.le_of_add_right_le (path_length_add_height_le hj)

/-- The root is no Terminal. -/
theorem codeword_ne_nil {cnt : FreqTable} {v : Byte} {c : BitSeq} (h : (build cnt).2.codeword v = some c) : c ≠ [] := by
  rintro rfl
  obtain ⟨j, hj, hv⟩ := codeword_path h
  simp only [descend, Option.some.injEq] at hj
  subst hj
  simp [nodeKind_root] at hv

/-- Settles O28: the code index holds the paths to the Terminals (`codeword_eq_some_iff`), and the height falls along a path. -/
theorem everyByteHasOneCodeword : Obligations.EveryByteHasOneCodeword := by
  intro cnt v
  obtain ⟨code, hcode⟩ := exists_code cnt
  obtain ⟨i, hi, hv⟩ := codeword_path (hcode v)
  refine ⟨code v, i, hcode v, hi, hv, List.length_pos_of_ne_nil (codeword_ne_nil (hcode v)), codeword_length_le (hcode v),
    fun path j hj hjv => ?_⟩
  exact Option.some.inj ((codeword_eq_some_iff.2 ⟨j, hj, hjv⟩).symm.trans (hcode v))

/-- The path that goes left at every node ends on a Terminal after as many bits as the node is high. -/
theorem zeros_reach_terminal (cnt : FreqTable) (i : NodeIdx) :
    ∃ j v, descend (buildNodes cnt) i (zeros (heightOf (buildNodes cnt) i)) = some j ∧ nodeKind j = .terminal v := by
  induction h : heightOf (buildNodes cnt) i generalizing i with
  | zero =>
    cases hk : nodeKind i with
    | terminal v => exact ⟨i, v, rfl, hk⟩
    | interior k =>
      have := left_height cnt k
      rw [heightOf_interior _ hk] at h
      omega
  | succ n ih =>
    cases hk : nodeKind i with
    | terminal v => simp [heightOf_terminal _ hk] at h
    | interior k =>
      have hleft := left_height cnt k
      rw [heightOf_interior _ hk] at h
      obtain ⟨j, v, hj, hv⟩ := ih (buildNodes cnt)[k].left (by omega)
      exact ⟨j, v, descend_cons.2 ⟨k, hk, hj⟩, hv⟩

/-- Settles O30: the codeword of zeros is as long as the root is high (`zeros_reach_terminal`), and no shorter path of zeros is a
codeword, since it would begin that one (`codeword_prefix_free`). -/
theorem allZerosCodewordIsLongest : Obligations.AllZerosCodewordIsLongest := by
  intro cnt
  obtain ⟨j, v, hj, hv⟩ := zeros_reach_terminal cnt rootIdx
  have hzeros := codeword_eq_some_iff.2 ⟨j, hj, hv⟩
  have hge := height_root_ge cnt
  refine ⟨v, hzeros, hge, fun u c => codeword_length_le, fun n hn i u hi hu => ?_⟩
  have hshort := codeword_eq_some_iff.2 ⟨i, hi, hu⟩
  have hpre : zeros n <+: zeros (heightOf (buildNodes cnt) rootIdx) := by
    simpa [zeros, List.prefix_replicate_iff] using (hn.trans_le hge).le
  obtain rfl := codeword_prefix_free hshort hzeros hpre
  have hlen := congrArg List.length (Option.some.inj (hshort.symm.trans hzeros))
  simp only [zeros, List.length_replicate] at hlen
  omega

/-! ### Nodes are taken in the order of their keys (R122 b) -/

/-- A node comes after its children. -/
theorem child_keyBefore (cnt : FreqTable) (k : Fin 255) (bit : Bit) :
    KeyBefore cnt (buildNodes cnt) ((buildNodes cnt)[k].child bit) (interiorIdx k) := by
  refine keyBefore_of_weight_le ?_ (child_lt_parent cnt k bit)
  have hsum := weight_eq_sum cnt k
  rw [weightOf_interior _ _ (nodeKind_interiorIdx k)]
  cases bit
  · exact hsum ▸ Nat.le_add_right ..
  · exact hsum ▸ Nat.le_add_left ..

/-- The second node of a merge comes before every node that is unmerged at a later one: a node that was there already has the
greater key, and a node made since comes after a child of which the same holds. -/
theorem snd_keyBefore_unmerged {cnt : FreqTable} {l k : Fin 255} {a b c : NodeIdx} (h : Merges cnt l a b) (hlk : l < k)
    (hc : Unmerged (buildNodes cnt) k c) : KeyBefore cnt (buildNodes cnt) b c := by
  induction k using WellFoundedLT.induction generalizing c with
  | ind k ih =>
    rcases Nat.lt_or_ge c.val (256 + l.val) with hold | hnew
    · have hun : Unmerged (buildNodes cnt) l c := ⟨hold, fun j bit hj => hc.2 j bit (hj.trans hlk)⟩
      have hno : ¬ (c = a ∨ c = b) := fun hab => by
        obtain ⟨bit, hbit⟩ := (merges_child_iff h).2 hab
        exact hc.2 l bit hlk hbit
      exact (or_assoc.2 (h.least c hun)).resolve_left hno
    · obtain ⟨m, rfl⟩ : ∃ m, c = interiorIdx m := ⟨_, eq_interiorIdx (nodeKind_interior (Nat.le_of_add_right_le hnew))⟩
      have hmk : m < k := Nat.lt_of_add_lt_add_left hc.1
      have hlm : l ≤ m := Nat.le_of_add_le_add_left hnew
      obtain ⟨a', b', h'⟩ := exists_merges cnt m
      obtain ⟨bit, hbit⟩ := (merges_child_iff h').2 (.inr rfl)
      have hb' : KeyBefore cnt (buildNodes cnt) b' (interiorIdx m) := hbit ▸ child_keyBefore cnt m bit
      rcases hlm.eq_or_lt with rfl | hlm
      · obtain ⟨bit, hbit⟩ := (merges_child_iff h).2 (.inr rfl)
        exact hbit ▸ child_keyBefore cnt l bit
      · exact keyBefore_trans (ih m hmk hlm h'.snd) hb'

section
variable {cnt : FreqTable} {k l : Fin 255} {i j : NodeIdx}

/-- Every child of a merge's node comes before every node that is unmerged at a later merge. -/
theorem child_keyBefore_unmerged (hi : ∃ bit, (buildNodes cnt)[l].child bit = i) (hlk : l < k)
    (hj : Unmerged (buildNodes cnt) k j) : KeyBefore cnt (buildNodes cnt) i j := by
  obtain ⟨a, b, h⟩ := exists_merges cnt l
  have hb := snd_keyBefore_unmerged h hlk hj
  rcases (merges_child_iff h).1 hi with rfl | rfl
  · exact keyBefore_trans h.before hb
  · exact hb

theorem child_unmerged (hi : ∃ bit, (buildNodes cnt)[k].child bit = i) : Unmerged (buildNodes cnt) k i := by
  obtain ⟨a, b, h⟩ := exists_merges cnt k
  rcases (merges_child_iff h).1 hi with rfl | rfl
  · exact h.fst
  · exact h.snd

/-- The node of lesser key is taken no later. -/
theorem parent_le_of_keyBefore (hi : ∃ bit, (buildNodes cnt)[k].child bit = i) (hj : ∃ bit, (buildNodes cnt)[l].child bit = j)
    (hij : KeyBefore cnt (buildNodes cnt) i j) : k ≤ l :=
  not_lt.1 fun hlk => keyBefore_asymm hij (child_keyBefore_unmerged hj hlk (child_unmerged hi))

/-- Interior nodes come in the order of their making: a later merge adds greater weights. -/
theorem interior_keyBefore (hkl : k < l) : KeyBefore cnt (buildNodes cnt) (interiorIdx k) (interiorIdx l) := by
  obtain ⟨a, b, h⟩ := exists_merges cnt k
  obtain ⟨a', b', h'⟩ := exists_merges cnt l
  have hab := weight_le_of_keyBefore h.before
  have hba' := weight_le_of_keyBefore (snd_keyBefore_unmerged h hkl h'.fst)
  have hab' := weight_le_of_keyBefore h'.before
  refine keyBefore_of_weight_le ?_ (Nat.add_lt_add_left hkl 256)
  rw [weightOf_interior _ _ (nodeKind_interiorIdx k), weightOf_interior _ _ (nodeKind_interiorIdx l), h.weight, h'.weight]
  omega

theorem not_root_keyBefore (hj : ∃ bit, (buildNodes cnt)[l].child bit = j) :
    ¬ KeyBefore cnt (buildNodes cnt) rootIdx j := by
  obtain ⟨bit, rfl⟩ := hj
  refine keyBefore_asymm ?_
  have hchild := child_keyBefore cnt l bit
  rcases (Fin.le_last l).eq_or_lt with rfl | hlt
  · exact hchild
  · exact keyBefore_trans hchild (interior_keyBefore (l := rootPos) hlt)

end

/-- A node of greater key is not farther from the root: its parent is made no earlier. -/
theorem path_length_le_of_keyBefore {cnt : FreqTable} {i j : NodeIdx} {p q : BitSeq}
    (hij : KeyBefore cnt (buildNodes cnt) i j) (hp : descend (buildNodes cnt) rootIdx p = some i)
    (hq : descend (buildNodes cnt) rootIdx q = some j) : q.length ≤ p.length := by
  induction p using List.reverseRecOn generalizing i j q with
  | nil =>
    obtain rfl : rootIdx = i := by simpa [descend] using hp
    rcases List.eq_nil_or_concat' q with rfl | ⟨q, bit', rfl⟩
    · exact Nat.le_refl _
    · obtain ⟨m', l, -, -, hj⟩ := descend_snoc.1 hq
      exact absurd hij (not_root_keyBefore ⟨bit', hj⟩)
  | append_singleton p bit ih =>
    rcases List.eq_nil_or_concat' q with rfl | ⟨q, bit', rfl⟩
    · exact Nat.zero_le _
    obtain ⟨m, k, hm, hmk, hi⟩ := descend_snoc.1 hp
    obtain ⟨m', l, hm', hml, hj⟩ := descend_snoc.1 hq
    obtain rfl := eq_interiorIdx hmk
    obtain rfl := eq_interiorIdx hml
    have hlen : q.length ≤ p.length := by
      rcases (parent_le_of_keyBefore ⟨bit, hi⟩ ⟨bit', hj⟩ hij).eq_or_lt with rfl | hkl
      · rw [path_unique hm hm']
      · exact ih (interior_keyBefore hkl) hm hm'
    simpa using hlen

/-- Settles O31: the Terminal of the lesser count has the lesser key, so it is not nearer to the root
(`path_length_le_of_keyBefore`). -/
theorem frequentBytesGetNoLongerCodewords : Obligations.FrequentBytesGetNoLongerCodewords := by
  intro cnt u v cu cv hlt hu hv
  obtain ⟨i, hi, hiu⟩ := codeword_path hu
  obtain ⟨j, hj, hjv⟩ := codeword_path hv
  refine path_length_le_of_keyBefore (.inl ?_) hj hi
  rwa [weightOf_terminal _ _ hiu, weightOf_terminal _ _ hjv]

/-! ### Equal counters (R125) -/

/-- Counted from the root down, the nodes `2k` and `2k + 1` are one level below node `256 + k`. -/
theorem log_child {k i : Nat} (hk : k < 255) (hi : i = 2 * k ∨ i = 2 * k + 1) :
    Nat.log 2 (511 - i) = Nat.log 2 (255 - k) + 1 := by
  rw [Nat.log_of_one_lt_of_le Nat.one_lt_two (by omega)]
  congr 2
  omega

/-- In the balanced tree, with nodes numbered from −512, the child a bit selects. -/
def nextPlace (place : Int) (bit : Bit) : Int := 2 * place + bit.toNat

/-- The root has place −2 and Terminal `v` has place `v − 512`. -/
theorem bits8_place (v : Byte) : (bits8 v).foldl nextPlace (rootIdx.val - 512) = v.toNat - 512 := by
  revert v
  decide +kernel

section
variable {cnt : FreqTable} {w : Count} (hw : ∀ v, cnt.count v = w)
include hw

/-- No node is lighter than a Terminal. -/
theorem count_le_weightOf_of_equal (i : NodeIdx) : w.toNat ≤ weightOf cnt (buildNodes cnt) i := by
  induction i using WellFoundedLT.induction with
  | ind i ih =>
    cases hk : nodeKind i with
    | terminal v => rw [weightOf_terminal _ _ hk, hw]
    | interior k =>
      have hlt := child_lt_parent cnt k false
      rw [← nodeKind_eq_interior.1 hk] at hlt
      rw [weightOf_interior _ _ hk, weight_eq_sum]
      exact Nat.le_add_right_of_le (ih _ hlt)

/-- The keys are in the order of the indices. -/
theorem keyBefore_iff_lt_of_equal {i j : NodeIdx} : KeyBefore cnt (buildNodes cnt) i j ↔ i < j := by
  have hlt : ∀ {i j : NodeIdx}, i < j → KeyBefore cnt (buildNodes cnt) i j := fun {i j} hij => by
    cases hi : nodeKind i with
    | terminal u =>
      refine keyBefore_of_weight_le ?_ hij
      rw [weightOf_terminal _ _ hi, hw]
      exact count_le_weightOf_of_equal hw j
    | interior k =>
      have hj : 256 ≤ j.val := (Nat.le_of_add_right_le (nodeKind_eq_interior.1 hi).ge).trans hij.le
      obtain rfl := eq_interiorIdx hi
      obtain ⟨l, rfl⟩ : ∃ l, j = interiorIdx l := ⟨_, eq_interiorIdx (nodeKind_interior hj)⟩
      exact interior_keyBefore (Nat.lt_of_add_lt_add_left hij)
  refine ⟨fun h => lt_of_not_ge fun hji => ?_, hlt⟩
  rcases hji.eq_or_lt with rfl | hji
  · exact keyBefore_asymm h h
  · exact keyBefore_asymm h (hlt hji)

/-- A merge takes the two least indices. -/
theorem merged_indices_of_unmerged {k : Fin 255} {a b : NodeIdx} (h : Merges cnt k a b)
    (hun : ∀ i, Unmerged (buildNodes cnt) k i ↔ 2 * k.val ≤ i.val ∧ i.val < 256 + k.val) :
    a.val = 2 * k.val ∧ b.val = 2 * k.val + 1 := by
  have ha := (hun a).1 h.fst
  have hb := (hun b).1 h.snd
  have hab := (keyBefore_iff_lt_of_equal hw).1 h.before
  have h0 := h.least ⟨2 * k.val, by omega⟩ ((hun _).2 ⟨by simp, by simp only; omega⟩)
  have h1 := h.least ⟨2 * k.val + 1, by omega⟩ ((hun _).2 ⟨by simp, by simp only; omega⟩)
  simp only [keyBefore_iff_lt_of_equal hw, Fin.ext_iff, Fin.lt_def] at h0 h1 hab
  omega

/-- Merge `k` has before it the nodes `2k` to `255 + k`. -/
theorem unmerged_iff_of_equal (k : Fin 255) (i : NodeIdx) :
    Unmerged (buildNodes cnt) k i ↔ 2 * k.val ≤ i.val ∧ i.val < 256 + k.val := by
  obtain ⟨k, hk⟩ := k
  induction k generalizing i with
  | zero => simpa using unmerged_zero
  | succ k ih =>
    obtain ⟨a, b, h⟩ := exists_merges cnt ⟨k, by omega⟩
    obtain ⟨ha, hb⟩ := merged_indices_of_unmerged hw h fun i => ih i (by omega)
    rw [unmerged_succ (k := ⟨k, by omega⟩), ih, merges_child_iff h]
    simp only [Fin.ext_iff, ha, hb, interiorIdx]
    omega

theorem merged_indices {k : Fin 255} {a b : NodeIdx} (h : Merges cnt k a b) : a.val = 2 * k.val ∧ b.val = 2 * k.val + 1 :=
  merged_indices_of_unmerged hw h (unmerged_iff_of_equal hw k)

/-- The levels of the tree from the root down have 1, 2, 4, … nodes. -/
theorem height_add_log_of_equal (i : NodeIdx) : heightOf (buildNodes cnt) i + Nat.log 2 (511 - i.val) = 8 := by
  induction i using WellFoundedLT.induction with
  | ind i ih =>
    cases hk : nodeKind i with
    | terminal v =>
      have hi := nodeKind_eq_terminal.1 hk
      have hv := v.isLt
      rw [heightOf_terminal _ hk, Nat.log_eq_of_pow_le_of_lt_pow (m := 8) (by omega) (by omega)]
    | interior k =>
      have hi := nodeKind_eq_interior.1 hk
      obtain ⟨a, b, h⟩ := exists_merges cnt k
      obtain ⟨ha, hb⟩ := merged_indices hw h
      have hha := ih a (by rw [Fin.lt_def]; omega)
      have hhb := ih b (by rw [Fin.lt_def]; omega)
      rw [log_child k.isLt (.inl ha)] at hha
      rw [log_child k.isLt (.inr hb)] at hhb
      rw [heightOf_interior _ hk, h.height, hi, show 511 - (256 + k.val) = 255 - k.val by omega]
      omega

/-- The two nodes a merge takes are of one level, so the first is left. -/
theorem children_of_equal (k : Fin 255) :
    (buildNodes cnt)[k].left.val = 2 * k.val ∧ (buildNodes cnt)[k].right.val = 2 * k.val + 1 := by
  obtain ⟨a, b, h⟩ := exists_merges cnt k
  obtain ⟨ha, hb⟩ := merged_indices hw h
  have hha := height_add_log_of_equal hw a
  have hhb := height_add_log_of_equal hw b
  rw [log_child k.isLt (.inl ha)] at hha
  rw [log_child k.isLt (.inr hb)] at hhb
  rcases merges_sides h with ⟨hlt, -, -⟩ | ⟨-, hl, hr⟩
  · omega
  · rw [hl, hr]
    exact ⟨ha, hb⟩

/-- From a node high enough a path leads to the node that its bits, read as a number, count off on the level it ends on. -/
theorem descend_of_equal (p : BitSeq) (i : NodeIdx) (hi : (512 - i.val) * 2 ^ p.length ≤ 512) :
    ∃ j, descend (buildNodes cnt) i p = some j ∧
      (j.val : Int) - 512 = p.foldl nextPlace ((i.val : Int) - 512) := by
  induction p generalizing i with
  | nil => exact ⟨i, rfl, rfl⟩
  | cons bit p ih =>
    rw [List.length_cons, Nat.pow_succ'] at hi
    have hpos := Nat.two_pow_pos p.length
    have hi' : (2 * (512 - i.val)) * 2 ^ p.length ≤ 512 := by rwa [Nat.mul_assoc, Nat.mul_left_comm]
    have hinner : 2 * (512 - i.val) ≤ 512 := (Nat.le_mul_of_pos_right _ hpos).trans hi'
    obtain ⟨k, hk⟩ : ∃ k, nodeKind i = .interior k := ⟨_, nodeKind_interior (by omega)⟩
    have hik := nodeKind_eq_interior.1 hk
    have hchild : ((buildNodes cnt)[k].child bit).val = 2 * k.val + bit.toNat := by
      obtain ⟨hl, hr⟩ := children_of_equal hw k
      cases bit
      · exact hl
      · exact hr
    have hle : 512 - ((buildNodes cnt)[k].child bit).val ≤ 2 * (512 - i.val) := by omega
    obtain ⟨j, hj, hval⟩ := ih _ ((Nat.mul_le_mul_right _ hle).trans hi')
    refine ⟨j, descend_cons.2 ⟨k, hk, hj⟩, ?_⟩
    rw [hval, List.foldl_cons]
    congr 1
    rw [nextPlace]
    omega

/-- The bits of a byte lead to its Terminal. -/
theorem descend_bits8 (v : Byte) : ∃ j, descend (buildNodes cnt) rootIdx (bits8 v) = some j ∧ nodeKind j = .terminal v := by
  obtain ⟨j, hj, hval⟩ := descend_of_equal hw (bits8 v) rootIdx (by rw [bits8_length]; decide)
  have hv : (j.val : Int) - 512 = v.toNat - 512 := hval.trans (bits8_place v)
  exact ⟨j, hj, nodeKind_eq_terminal.2 (by omega)⟩

end

/-- Settles O32: merges take the nodes in the order of their indices (`keyBefore_iff_lt_of_equal`, `unmerged_iff_of_equal`), which
makes the tree balanced (`children_of_equal`), and in it the bits of a byte lead to its Terminal (`descend_bits8`). -/
theorem equalCountersGiveTheIdentityCode : Obligations.EqualCountersGiveTheIdentityCode := by
  intro cnt w hw
  refine ⟨children_of_equal hw, fun v => codeword_eq_some_iff.2 (descend_bits8 hw v), fun ys => ?_⟩
  induction ys with
  | nil =>
    refine .stop [] fun path i v hpath hi => ?_
    obtain rfl := List.prefix_nil.1 hpath
    obtain rfl : rootIdx = i := Option.some.inj hi
    simp [nodeKind_root]
  | cons y ys ih =>
    obtain ⟨i, hi, hv⟩ := descend_bits8 hw y
    exact .emit (bits8 y) _ ys [] i y hi hv ih

end Sys2Proof.Proofs
end

section
/-! PROOFS. The family of spec/42_encoder.md: the freeze as a function (R132), the words of unit E's commands and what each does
(R134 to R136), the bounds of R140, and a session as a whole: what unit E holds after any `EPUT`s and `EEND`s, and from it the
stream law (R138) and chunk-split stability (R139). -/

namespace Sys2Proof.Proofs

open Sys2Proof Sys2Proof.Machine Sys2Proof.Safety Sys2Proof.Laws

/-! ### The code of a table, and the bits of a stream -/

/-- The code of a table (R120) as a function of the byte. -/
def codeOf (cnt : FreqTable) (v : Byte) : BitSeq := ((build cnt).2.codeword v).getD []

theorem isCodeOf_codeOf (cnt : FreqTable) : IsCodeOf (build cnt).2 (codeOf cnt) := by
  intro v
  obtain ⟨code, hcode⟩ := exists_code cnt
  simp [codeOf, hcode v]

theorem codeOf_length_pos (cnt : FreqTable) (v : Byte) : 1 ≤ (codeOf cnt v).length :=
  List.length_pos_of_ne_nil (codeword_ne_nil (isCodeOf_codeOf cnt v))

/-- A height is stored in 8 bits (R121 line 4). -/
theorem codeOf_length_le (cnt : FreqTable) (v : Byte) : (codeOf cnt v).length ≤ 255 := by
  have hlen := codeword_length_le (isCodeOf_codeOf cnt v)
  rw [heightOf_interior _ nodeKind_root] at hlen
  exact hlen.trans (Nat.le_of_lt_succ (Fin.isLt _))

theorem flatMap_codeOf_length_le (cnt : FreqTable) (ys : ByteSeq) : (ys.flatMap (codeOf cnt)).length ≤ 255 * ys.length := by
  induction ys with
  | nil => exact Nat.zero_le _
  | cons y ys ih =>
    have hy := codeOf_length_le cnt y
    rw [List.flatMap_cons, List.length_append, List.length_cons]
    omega

/-- The bits of the header of a table and of the codewords of bytes (R138). -/
def streamBits (cnt : FreqTable) (ys : ByteSeq) : BitSeq := (ftSerialize cnt).flatMap bits8 ++ ys.flatMap (codeOf cnt)

theorem streamBits_snoc (cnt : FreqTable) (ys : ByteSeq) (y : Byte) :
    streamBits cnt (ys ++ [y]) = streamBits cnt ys ++ codeOf cnt y := by
  simp [streamBits]

theorem streamBits_length_le (cnt : FreqTable) (ys : ByteSeq) : (streamBits cnt ys).length ≤ 16384 + 255 * ys.length := by
  rw [streamBits, List.length_append, flatMap_bits8_length, ftSerialize_length]
  exact Nat.add_le_add_left (flatMap_codeOf_length_le cnt ys) _

/-- Packing goes over whole bytes at the front. -/
theorem bbToBytes_flatMap_append (ys : ByteSeq) (q : BitSeq) : bbToBytes (ys.flatMap bits8 ++ q) = ys ++ bbToBytes q := by
  have hlen : (ys.flatMap bits8).length % 8 = 0 := by rw [flatMap_bits8_length, Nat.mul_mod_right]
  rw [bbToBytes_append hlen, bbToBytes_flatMap]

/-- A whole number of bytes takes no padding. -/
theorem flatMap_bbToBytes_of_aligned {q : BitSeq} (hq : q.length % 8 = 0) : (bbToBytes q).flatMap bits8 = q := by
  rw [flatMap_bbToBytes, hq]
  exact List.append_nil q

/-! ### What the commands do to unit E (R132 to R136) -/

/-- Unit E after `E_freeze()` (R132). -/
def frozenUnit (u : UnitE) : UnitE :=
  { u with
    state := .encoding, pend := [], node := some (build u.cnt).1, code := (build u.cnt).2,
    out := u.out ++ streamBits u.cnt u.pend }

/-- The freeze never meets an index miss, since every byte has a codeword. -/
theorem freeze_eq (u : UnitE) : u.freeze = some (frozenUnit u) := by
  rw [freeze_of_isCodeOf (isCodeOf_codeOf u.cnt), startEncoding_out, bbAppendBytes, List.append_assoc]
  rfl

section
variable {u : UnitE} {l : Config.Threshold} {y : Byte}

theorem put_holds (hs : u.state = .collecting) (hl : u.pend.length + 1 ≤ l.val) : u.put l y = some (u.collect y) := by
  have hlen : ¬ l.val < (u.collect y).pend.length := by simpa using hl
  simp only [UnitE.put, hs, if_neg hlen]

theorem put_freezes (hs : u.state = .collecting) (hl : l.val < u.pend.length + 1) :
    u.put l y = some (frozenUnit (u.collect y)) := by
  have hlen : l.val < (u.collect y).pend.length := by simpa using hl
  simp only [UnitE.put, hs, if_pos hlen, freeze_eq]

theorem put_encodes (hs : u.state = .encoding) :
    u.put l y = (u.code.codeword y).map fun c => { u with out := u.out ++ c } := by
  simp only [UnitE.put, hs, encodeByte_eq_map]

theorem emit_aligned (h : u.out.length % 8 = 0) : u.emit = ({ u with out := [] }, bbToBytes u.out) := if_pos h

theorem emit_unaligned (h : u.out.length % 8 ≠ 0) : u.emit = (u, []) := if_neg h

theorem emit_empty (h : u.out = []) : u.emit = (u, []) := by
  have hsame : { u with out := [] } = u := by rw [← h]
  have hnil : bbToBytes [] = [] := rfl
  rw [emit_aligned (by rw [h]; rfl), h, hsame, hnil]

theorem flush_collecting (hs : u.state = .collecting) :
    u.flush = some ({ frozenUnit u with out := [], flushed := true }, bbToBytes (u.out ++ streamBits u.cnt u.pend)) := by
  simp only [UnitE.flush, hs, freeze_eq]
  rfl

theorem flush_encoding (hs : u.state = .encoding) :
    u.flush = some ({ u with out := [], flushed := true }, bbToBytes u.out) := by
  cases u
  cases hs
  rfl

end

section
variable {s : State} {u : UnitE} {data : ByteSeq} (ho : OpenE s)
include ho

theorem exec_eput_of_put {y : Byte} (h : s.e.put s.threshold y = some u) :
    exec (.eput y) s = .next ({ s with e := u }.respondE Response.done) :=
  (exec_eput y s).trans (runE_ok (encoder_refusal_eq_none.2 ho) (by rw [h]; rfl))

theorem exec_eput_of_miss {y : Byte} (h : s.e.put s.threshold y = none) :
    exec (.eput y) s = .next ({ s with e := s.e.setFatal }.respondE (Response.ofCause .indexMiss)) :=
  (exec_eput y s).trans (runE_miss (encoder_refusal_eq_none.2 ho) (by rw [h]; rfl))

theorem exec_eend_of_emit (h : s.e.emit = (u, data)) :
    exec .eend s = .next ({ s with e := u }.respondE (Response.okWith 0 data)) :=
  (exec_eend s).trans (runE_ok (encoder_refusal_eq_none.2 ho) (congrArg some h))

theorem exec_eflush_of_flush (h : s.e.flush = some (u, data)) :
    exec .eflush s = .next ({ s with e := u }.respondE (Response.okWith 0 data)) :=
  (exec_eflush s).trans (runE_ok (encoder_refusal_eq_none.2 ho) h)

end

/-- Every command of unit E has the prologue of R131. -/
theorem prologueRefusesE {i : Instr} (hu : i.unit = .e) : PrologueRefusesE i := by
  intro s h
  obtain ⟨body, hbody⟩ := exec_unitE hu
  rw [hbody]
  cases hf : s.e.fatal with
  | true => exact runE_refused (encoder_refusal_eq_some.2 (.inl ⟨hf, rfl⟩))
  | false =>
    have hflushed : s.e.flushed = true := by simpa [hf] using h
    exact runE_refused (encoder_refusal_eq_some.2 (.inr ⟨hf, hflushed, rfl⟩))

/-! ### The words of unit E's commands (R71, R74) -/

/-- The words of a command with a byte operand, unit and `funct` given (format Y). -/
theorem wordOf_byte_eq_iff (cw : CmdWord) (u f : BitVec 4) (y : Byte) :
    wordOf u f y = cw ↔ cw &&& 0xFF00 = wordOf u f 0 ∧ y = cw.extractLsb' 0 8 := by
  obtain ⟨u', f', a, rfl⟩ := exists_wordOf cw
  rw [show (0xFF00 : CmdWord) = wordOf 15#4 15#4 0#8 from rfl, wordOf_and, and_fifteen, and_fifteen, wordOf_inj, wordOf_inj,
    extract_arg_wordOf, eq_comm (a := u), eq_comm (a := f)]
  simp [and_assoc]

/-- A word with the `funct` of a command without an operand and another `arg` has no meaning (format N). -/
theorem meaningless_of_other_arg {cw : CmdWord} {u f : BitVec 4} (hu : u = 2#4 ∨ u = 3#4) (hf : f = 1#4 ∨ f = 2#4)
    (hunit : unitField cw = u.toNat) (hfunct : functField cw = f.toNat) (hne : cw ≠ wordOf u f 0) : Meaningless cw := by
  obtain ⟨u', f', a, rfl⟩ := exists_wordOf cw
  rw [unitField_wordOf] at hunit
  rw [functField_wordOf] at hfunct
  obtain rfl : u' = u := BitVec.eq_of_toNat_eq hunit
  obtain rfl : f' = f := BitVec.eq_of_toNat_eq hfunct
  exact meaningless_of_argN hu hf fun ha => hne (by rw [ha]; rfl)

/-- Unit E refuses the words without meaning that carry its code (R77, R171). -/
theorem accept_meaninglessE {cw : CmdWord} (h : Meaningless cw) (hunit : unitField cw = 2) (s : State) :
    accept cw s = .next (s.respondE ⟨.refused, 1, []⟩) := by
  have he : answerer cw = some .e := (answerer_eq_iff cw).2.1.2 (BitVec.eq_of_toNat_eq hunit)
  rw [accept_of_meaningless h, he]
  rfl

/-! ### What the commands do -/

/-- Settles O33: the three things `EPUT` does to the unit (`put_holds`, `put_freezes`, `put_encodes`), and the roll-back where
there is no codeword. -/
theorem eputCountsThenEncodes : Obligations.EputCountsThenEncodes := by
  refine ⟨fun cw y => decode_eq_ok_iff.trans (wordOf_byte_eq_iff cw 2 0 y), fun y => prologueRefusesE rfl,
    fun y s ho => ⟨fun hs hl => ?_, fun hs hl => ?_, fun c hs hc => ?_, fun hs hc => ?_⟩⟩
  · exact ⟨_, exec_eput_of_put ho (put_holds hs hl), rfl, answersE_respondE ..⟩
  · refine ⟨_, codeOf (ftPush s.e.cnt y), exec_eput_of_put ho (put_freezes hs hl), ?_, isCodeOf_codeOf _, answersE_respondE ..⟩
    rw [List.append_assoc]
    rfl
  · exact ⟨_, exec_eput_of_put ho ((put_encodes hs).trans (by rw [hc]; rfl)), rfl, answersE_respondE ..⟩
  · exact exec_eput_of_miss ho ((put_encodes hs).trans (by rw [hc]; rfl))

/-- Settles O35: all of an aligned `e_out` (`emit_aligned`), which takes no padding, or nothing (`emit_unaligned`). -/
theorem eendEmitsWhenAligned : Obligations.EendEmitsWhenAligned := by
  refine ⟨fun cw => decode_eq_ok_iff.trans eq_comm, fun cw s hunit hfunct hne => ?_, prologueRefusesE rfl,
    fun s ho => ⟨fun h => ?_, fun h => ?_⟩⟩
  · exact accept_meaninglessE (meaningless_of_other_arg (.inl rfl) (.inl rfl) hunit hfunct hne) hunit s
  · exact ⟨_, _, exec_eend_of_emit ho (emit_aligned h), rfl, answersE_respondE .., flatMap_bbToBytes_of_aligned h⟩
  · exact ⟨_, exec_eend_of_emit ho (emit_unaligned h), rfl, answersE_respondE ..⟩

/-- Settles O36: the flush with the freeze (`flush_collecting`) and without (`flush_encoding`). -/
theorem eflushEmitsTheRestAndCloses : Obligations.EflushEmitsTheRestAndCloses := by
  refine ⟨fun cw => decode_eq_ok_iff.trans eq_comm, fun cw s hunit hfunct hne => ?_, prologueRefusesE rfl,
    fun s ho => ⟨fun hs => ?_, fun hs => ?_⟩⟩
  · exact accept_meaninglessE (meaningless_of_other_arg (.inl rfl) (.inr rfl) hunit hfunct hne) hunit s
  · refine ⟨_, codeOf s.e.cnt, exec_eflush_of_flush ho (flush_collecting hs), rfl, isCodeOf_codeOf _, ?_⟩
    rw [List.append_assoc]
    exact answersE_respondE ..
  · exact ⟨_, exec_eflush_of_flush ho (flush_encoding hs), rfl, answersE_respondE ..⟩

/-! ### Bounds (R140) -/

theorem pend_length_le {l : Config.Threshold} {u : UnitE} (h : EncoderInv l u) : u.pend.length ≤ l.val := by
  cases hs : u.state with
  | collecting =>
    obtain ⟨-, -, -, -, hle⟩ := h.collecting hs
    exact hle
  | encoding =>
    obtain ⟨hpend, -, -⟩ := h.encoding hs
    rw [hpend]
    exact Nat.zero_le _

/-- `EPUT` in `Collecting` leaves `e_out` empty, or with the header and at most `THRESHOLD + 1` codewords of at most 255 bits. -/
theorem put_collecting_bound {l : Config.Threshold} {u : UnitE} (h : EncoderInv l u) (hs : u.state = .collecting) (y : Byte) :
    ∃ u', u.put l y = some u' ∧ u'.out.length ≤ 16384 + 255 * (l.val + 1) := by
  obtain ⟨hout, -, -, -, hle⟩ := h.collecting hs
  by_cases hl : u.pend.length + 1 ≤ l.val
  · refine ⟨_, put_holds hs hl, ?_⟩
    rw [collect_out, hout]
    exact Nat.zero_le _
  · refine ⟨_, put_freezes hs (by omega), ?_⟩
    have hbits := streamBits_length_le (ftPush u.cnt y) (u.pend ++ [y])
    rw [List.length_append, List.length_singleton] at hbits
    have hnew : (frozenUnit (u.collect y)).out = streamBits (ftPush u.cnt y) (u.pend ++ [y]) := by
      simp [frozenUnit, hout]
    exact (congrArg List.length hnew).trans_le (hbits.trans (by omega))

/-- `EPUT` in `Encoding` adds one codeword. -/
theorem put_encoding_adds {l : Config.Threshold} {u : UnitE} (h : EncoderInv l u) (hs : u.state = .encoding) (y : Byte) :
    u.put l y = some { u with out := u.out ++ codeOf u.cnt y } := by
  obtain ⟨-, -, hcode⟩ := h.encoding hs
  rw [put_encodes hs, hcode, isCodeOf_codeOf]
  rfl

/-- Settles O37: at most `THRESHOLD + 1` codewords enter `e_out` with the header (`put_collecting_bound`), and a codeword has 1 to
255 bits. -/
theorem encoderBufferBounds : Obligations.EncoderBufferBounds := by
  intro s hinv
  refine ⟨pend_length_le hinv.encoder, fun hf => (hinv.encoder.flushed hf).2, fun y t h ho => ⟨fun hs => ?_, fun hs => ?_⟩⟩
  · obtain ⟨u, hu, hlen⟩ := put_collecting_bound hinv.encoder hs y
    obtain rfl := Host.Outcome.next.inj ((exec_eput_of_put ho hu).symm.trans h)
    exact hlen
  · obtain rfl := Host.Outcome.next.inj ((exec_eput_of_put ho (put_encoding_adds hinv.encoder hs y)).symm.trans h)
    have hpos := codeOf_length_pos s.e.cnt y
    have hle := codeOf_length_le s.e.cnt y
    simp only [respondE_e, List.length_append]
    omega

/-! ### A session up to its flush (R138) -/

/-- The table a session freezes (R138): it counts the first `THRESHOLD + 1` bytes. -/
def sessionTable (l : Config.Threshold) (ys : ByteSeq) : FreqTable := (ys.take (l.val + 1)).foldl ftPush FreqTable.empty

theorem sessionTable_counts {l : Config.Threshold} {ys : ByteSeq} (h : ys.length ≤ l.val) (y : Byte) :
    sessionTable l (ys ++ [y]) = ftPush (sessionTable l ys) y := by
  have hlen : (ys ++ [y]).length ≤ l.val + 1 := by simpa using h
  rw [sessionTable, sessionTable, List.take_of_length_le hlen, List.take_of_length_le (Nat.le_succ_of_le h), List.foldl_append]
  rfl

theorem sessionTable_full {l : Config.Threshold} {ys : ByteSeq} (h : l.val < ys.length) (y : Byte) :
    sessionTable l (ys ++ [y]) = sessionTable l ys := by
  rw [sessionTable, sessionTable, List.take_append_of_le_length h]

/-- Unit E after bytes `ys` while `Collecting`: all counted, all pending, nothing in `e_out`. -/
def collectingUnit (l : Config.Threshold) (ys : ByteSeq) : UnitE :=
  { UnitE.reset with cnt := sessionTable l ys, pend := ys }

/-- Unit E after bytes `ys` in `Encoding`, with `out` in `e_out`. -/
def encodingUnit (l : Config.Threshold) (ys : ByteSeq) (out : BitSeq) : UnitE :=
  { UnitE.reset with
    state := .encoding, cnt := sessionTable l ys, out := out, node := some (build (sessionTable l ys)).1,
    code := (build (sessionTable l ys)).2 }

/-- Unit E in an open session in which bytes `ys` have come in and `data` has gone out: what went out and what stands in `e_out`
are together the bits of the stream so far. -/
inductive InSession (l : Config.Threshold) (ys : ByteSeq) : ByteSeq → UnitE → Prop
  | collecting (h : ys.length ≤ l.val) : InSession l ys [] (collectingUnit l ys)
  | encoding (data : ByteSeq) (out : BitSeq) (h : l.val < ys.length)
      (hbits : data.flatMap bits8 ++ out = streamBits (sessionTable l ys) ys) : InSession l ys data (encodingUnit l ys out)

section
variable {l : Config.Threshold} {ys data : ByteSeq} {u : UnitE}

theorem inSession_reset (l : Config.Threshold) : InSession l [] [] UnitE.reset := .collecting (Nat.zero_le _)

theorem inSession_open (h : InSession l ys data u) : u.fatal = false ∧ u.flushed = false := by
  cases h <;> exact ⟨rfl, rfl⟩

theorem inSession_put (h : InSession l ys data u) (y : Byte) : ∃ u', u.put l y = some u' ∧ InSession l (ys ++ [y]) data u' := by
  cases h with
  | collecting h =>
    have hunit : (collectingUnit l ys).collect y = collectingUnit l (ys ++ [y]) := by
      rw [collectingUnit, collectingUnit, sessionTable_counts h]
      rfl
    by_cases hl : ys.length + 1 ≤ l.val
    · exact ⟨_, put_holds rfl hl, hunit ▸ .collecting (by simpa using hl)⟩
    · exact ⟨_, put_freezes rfl (Nat.lt_of_not_le hl), hunit ▸ .encoding [] _ (by simpa using hl) rfl⟩
  | encoding data out h hbits =>
    have hunit : encodingUnit l (ys ++ [y]) (out ++ codeOf (sessionTable l ys) y) =
        { encodingUnit l ys out with out := out ++ codeOf (sessionTable l ys) y } := by
      rw [encodingUnit, sessionTable_full h]
      rfl
    refine ⟨{ encodingUnit l ys out with out := out ++ codeOf (sessionTable l ys) y }, ?_, hunit ▸ .encoding data _ ?_ ?_⟩
    · rw [put_encodes rfl, show (encodingUnit l ys out).code = (build (sessionTable l ys)).2 from rfl, isCodeOf_codeOf]
      rfl
    · rw [List.length_append]
      exact Nat.lt_add_right _ h
    · rw [sessionTable_full h, streamBits_snoc, ← hbits, List.append_assoc]

theorem inSession_emit (h : InSession l ys data u) : InSession l ys (data ++ u.emit.2) u.emit.1 := by
  cases h with
  | collecting h =>
    rw [emit_empty (u := collectingUnit l ys) rfl]
    exact .collecting h
  | encoding data out h hbits =>
    by_cases ha : out.length % 8 = 0
    · rw [emit_aligned (u := encodingUnit l ys out) ha]
      refine .encoding _ [] h ?_
      rw [← hbits, List.append_nil, List.flatMap_append]
      exact congrArg _ (flatMap_bbToBytes_of_aligned ha)
    · rw [emit_unaligned (u := encodingUnit l ys out) ha, List.append_nil]
      exact .encoding data out h hbits

/-- The flush gives what is left of the stream, packed, and its state depends on the bytes of the session alone. -/
theorem inSession_flush (h : InSession l ys data u) : ∃ rest, u.flush = some ((encodingUnit l ys []).setFlushed, rest) ∧
    data ++ rest = bbToBytes (streamBits (sessionTable l ys) ys) := by
  cases h with
  | collecting h => exact ⟨_, flush_collecting rfl, rfl⟩
  | encoding data out h hbits => exact ⟨_, flush_encoding rfl, by rw [← hbits, bbToBytes_flatMap_append]; rfl⟩

end

/-! ### Sessions as runs (R138, R139) -/

/-- One `EPUT` or `EEND` of an open session: the byte, if any, comes in, and the data of the response goes out. -/
theorem encoderEvent_step {s : State} {ys data : ByteSeq} (h : InSession s.threshold ys data s.e) (event : Option Byte) :
    ∃ u out, InSession s.threshold (ys ++ event.toList) (data ++ out) u ∧
      ∀ ins, runInputs (encoderEvent event :: ins) s = runInputs ins ({ s with e := u }.respondE (Response.okWith 0 out)) := by
  cases event with
  | some y =>
    obtain ⟨u, hput, hu⟩ := inSession_put h y
    exact ⟨u, [], by simpa using hu,
      runInputs_command (decode_encode _) (exec_eput_of_put (inSession_open h) hput)⟩
  | none =>
    exact ⟨s.e.emit.1, s.e.emit.2, by simpa only [Option.toList_none, List.append_nil] using inSession_emit h,
      runInputs_command (decode_encode _) (exec_eend_of_emit (inSession_open h) rfl)⟩

theorem dataOf_cons (r : Response) (rs : List Response) : dataOf (r :: rs) = r.data ++ dataOf rs := rfl

/-- The rest of a session, from any point of it. -/
theorem session_rest (events : List (Option Byte)) {s : State} {ys data : ByteSeq} (h : InSession s.threshold ys data s.e) :
    ∃ t rs, runInputs (events.map encoderEvent ++ [issue .eflush]) s = .next t ∧ t.respE = s.respE ++ rs ∧
      t.e = (encodingUnit s.threshold (ys ++ events.filterMap id) []).setFlushed ∧
      data ++ dataOf rs = bbToBytes
        (streamBits (sessionTable s.threshold (ys ++ events.filterMap id)) (ys ++ events.filterMap id)) := by
  induction events generalizing s ys data with
  | nil =>
    obtain ⟨rest, hflush, hdata⟩ := inSession_flush h
    refine ⟨_, [Response.okWith 0 rest],
      runInputs_command (decode_encode _) (exec_eflush_of_flush (inSession_open h) hflush) [], rfl, ?_, ?_⟩
    · rw [List.filterMap_nil, List.append_nil]
      rfl
    · simpa [dataOf, Response.okWith] using hdata
  | cons event events ih =>
    obtain ⟨u, out, hu, hrun⟩ := encoderEvent_step h event
    obtain ⟨t, rs, ht, hresp, he, hdata⟩ := ih (s := { s with e := u }.respondE (Response.okWith 0 out)) hu
    have hys : ys ++ (event :: events).filterMap id = ys ++ event.toList ++ events.filterMap id := by
      cases event <;> simp
    rw [hys]
    refine ⟨t, Response.okWith 0 out :: rs, (hrun _).trans ht, ?_, he, ?_⟩
    · rw [hresp, respondE_respE, List.append_assoc]
      rfl
    · rw [dataOf_cons, ← List.append_assoc]
      exact hdata

/-- A whole session of unit E, from any state: the state it leaves and the stream it gives (R138). -/
theorem encoder_session (s : State) (l : Config.Threshold) (events : List (Option Byte)) :
    ∃ t rs, runInputs (.resetE l :: (events.map encoderEvent ++ [issue .eflush])) s = .next t ∧ t.respE = s.respE ++ rs ∧
      t.e = (encodingUnit l (events.filterMap id) []).setFlushed ∧
      dataOf rs = ftSerialize (sessionTable l (events.filterMap id)) ++
        bbToBytes ((events.filterMap id).flatMap (codeOf (sessionTable l (events.filterMap id)))) := by
  obtain ⟨t, rs, ht, hresp, he, hdata⟩ := session_rest events (s := s.resetE l) (inSession_reset l)
  refine ⟨t, rs, (runInputs_resetE ..).trans ht, hresp, he, ?_⟩
  rw [← bbToBytes_flatMap_append]
  exact hdata

/-- Settles O55: what goes out in a session and what stands in `e_out` are always the bits of the stream so far (`InSession`). -/
theorem encoderStreamLaw : Obligations.EncoderStreamLaw := by
  intro s l events
  obtain ⟨t, rs, ht, hresp, -, hdata⟩ := encoder_session s l events
  exact ⟨t, rs, codeOf _, ht, hresp, isCodeOf_codeOf _, hdata⟩

/-- The events of a session of chunks (R82): the bytes of each chunk, and an `EEND` after it. -/
def chunkEvents (chunks : List ByteSeq) : List (Option Byte) := chunks.flatMap fun ys => ys.map some ++ [none]

theorem filterMap_chunkEvents (chunks : List ByteSeq) : (chunkEvents chunks).filterMap id = chunks.flatten := by
  induction chunks with
  | nil => rfl
  | cons ys chunks ih =>
    have hchunk : (ys.map some ++ [none]).filterMap id = ys := by simp
    rw [chunkEvents, List.flatMap_cons, List.filterMap_append, hchunk]
    exact congrArg (ys ++ ·) ih

theorem eSession_eq (l : Config.Threshold) (chunks : List ByteSeq) :
    eSession l chunks = .resetE l :: ((chunkEvents chunks).map encoderEvent ++ [issue .eflush]) := by
  have hchunk (ys : ByteSeq) : eProcess ys = (ys.map some ++ [none]).map encoderEvent := by
    simp [eProcess, encoderEvent, Function.comp_def]
  rw [eSession, chunkEvents, List.map_flatMap, funext hchunk]

/-- A session of chunks, from any state: what it gives and leaves depends on `THRESHOLD` and the joined bytes alone (R139). -/
theorem chunk_session (s : State) (l : Config.Threshold) (chunks : List ByteSeq) :
    ∃ t rs, runInputs (eSession l chunks) s = .next t ∧ t.respE = s.respE ++ rs ∧
      t.e = (encodingUnit l chunks.flatten []).setFlushed ∧
      dataOf rs = ftSerialize (sessionTable l chunks.flatten) ++
        bbToBytes (chunks.flatten.flatMap (codeOf (sessionTable l chunks.flatten))) := by
  rw [eSession_eq, ← filterMap_chunkEvents]
  exact encoder_session s l _

/-- Settles O56: both sessions give and leave what `chunk_session` says of their joined bytes. -/
theorem encodingIsChunkSplitStable : Obligations.EncodingIsChunkSplitStable := by
  intro s l chunks₁ chunks₂ h
  obtain ⟨t₁, rs₁, ht₁, hresp₁, he₁, hdata₁⟩ := chunk_session s l chunks₁
  obtain ⟨t₂, rs₂, ht₂, hresp₂, he₂, hdata₂⟩ := chunk_session s l chunks₂
  rw [← h] at he₂ hdata₂
  exact ⟨t₁, t₂, rs₁, rs₂, ht₁, ht₂, hresp₁, hresp₂, hdata₁.trans hdata₂.symm, he₁.trans he₂.symm⟩

end Sys2Proof.Proofs
end

section
/-! PROOFS. The family of spec/43_decoder.md: what a walk gives for any store and how it splits the bits of a built tree (R154,
R158), the words of unit D's commands and what each does (R152 to R156), the residual (R161), and a session as a whole: what unit D
holds after any `DPUT`s and `DEND`s, and from it resumption (R158) and the round trip (R159). -/

namespace Sys2Proof.Proofs

open Sys2Proof Sys2Proof.Machine Sys2Proof.Safety Sys2Proof.Laws

/-! ### The walk gives what `Walks` asks for, in any store (R154) -/

section
variable {store : NodeStore} {p q rest : BitSeq} {i j : NodeIdx} {k : Fin 255} {v : Byte} {out : ByteSeq}

/-- No Terminal stands on the way to an Interior node. -/
theorem not_terminal_on_path_to_interior (hq : descend store rootIdx q = some i) (hi : nodeKind i = .interior k) (hpq : p <+: q)
    (hp : descend store rootIdx p = some j) : nodeKind j ≠ .terminal v := by
  intro hv
  obtain ⟨r, rfl⟩ := hpq
  rw [descend_append, hp] at hq
  obtain ⟨-, rfl⟩ := descend_terminal hv hq
  simp [hi] at hv

/-- The loop from node `i`, reached by the bits `taken`, does what a walk of `taken` and the bits after them must do. -/
theorem walks_walkBits_from {taken : BitSeq} (ht : descend store rootIdx taken = some i) (hi : nodeKind i = .interior k)
    (q : BitSeq) : Walks store (taken ++ q) (walkBits store k taken q).1 (walkBits store k taken q).2 := by
  induction q generalizing k taken i with
  | nil =>
    rw [List.append_nil]
    exact .stop taken fun path j v hpath hj => not_terminal_on_path_to_interior ht hi hpath hj
  | cons bit q ih =>
    have hchild : descend store rootIdx (taken ++ [bit]) = some (store[k].child bit) := descend_snoc.2 ⟨i, k, ht, hi, rfl⟩
    rw [List.append_cons]
    cases hkind : nodeKind (store[k].child bit) with
    | terminal v =>
      simp only [walkBits, hkind]
      exact .emit _ q _ _ _ v hchild hkind (ih (taken := []) rfl nodeKind_root)
    | interior k' =>
      simp only [walkBits, hkind]
      exact ih hchild hkind

/-- The loop from the root gives the one outcome a walk may have. -/
theorem walks_iff_walkBits : Walks store q out rest ↔ walkBits store rootPos [] q = (out, rest) := by
  constructor
  · intro h
    induction h with
    | stop q h => exact walkBits_to_end [] q nodeKind_root h
    | emit path q out rest i v hpath hleaf _ ih => rw [walkBits_to_terminal [] q nodeKind_root hpath hleaf, ih]
  · intro h
    simpa only [h, List.nil_append] using walks_walkBits_from (store := store) (taken := []) rfl nodeKind_root q

/-- The root is no Terminal, so a walk takes at least one bit for each byte. -/
theorem walks_output_length_le (h : Walks store q out rest) : out.length ≤ q.length := by
  induction h with
  | stop q h => exact Nat.zero_le _
  | emit path q out rest i v hpath hleaf _ ih =>
    have hne : path ≠ [] := by
      rintro rfl
      obtain rfl : rootIdx = i := Option.some.inj hpath
      simp [nodeKind_root] at hleaf
    have hpos := List.length_pos_of_ne_nil hne
    rw [List.length_cons, List.length_append]
    omega

end

/-! ### Bits split into codewords and a residual (R158) -/

/-- Bits along which no Terminal is reached lead from the root to an Interior node. -/
theorem exists_interior_of_no_terminal {store : NodeStore} {q : BitSeq}
    (h : ∀ path i v, path <+: q → descend store rootIdx path = some i → nodeKind i ≠ .terminal v) :
    ∃ i k, descend store rootIdx q = some i ∧ nodeKind i = .interior k := by
  induction q using List.reverseRecOn with
  | nil => exact ⟨rootIdx, rootPos, rfl, nodeKind_root⟩
  | append_singleton q bit ih =>
    obtain ⟨i, k, hi, hk⟩ := ih fun path j v hpath => h path j v (hpath.trans (List.prefix_append q [bit]))
    have hchild : descend store rootIdx (q ++ [bit]) = some (store[k].child bit) := descend_snoc.2 ⟨i, k, hi, hk, rfl⟩
    cases hkind : nodeKind (store[k].child bit) with
    | terminal v => exact absurd hkind (h _ _ v (List.prefix_refl _) hchild)
    | interior k' => exact ⟨_, k', hchild, hkind⟩

section
variable {cnt : FreqTable} {q rest : BitSeq} {ys : ByteSeq}

/-- Bits begin a codeword and are not all of it just where no Terminal is reached along them: the path on from the Interior node
they lead to ends on a Terminal, and none on the way to it is reached before. -/
theorem properPrefix_iff : ProperPrefix (build cnt).2 q ↔
    ∀ path i v, path <+: q → descend (buildNodes cnt) rootIdx path = some i → nodeKind i ≠ .terminal v := by
  constructor
  · rintro ⟨u, c, r, hc, hr, rfl⟩ path i v ⟨q', rfl⟩ hi hv
    obtain ⟨j, hj, -⟩ := codeword_path hc
    rw [List.append_assoc, descend_append, hi] at hj
    obtain ⟨hnil, -⟩ := descend_terminal hv hj
    exact hr (List.append_eq_nil_iff.1 hnil).2
  · intro h
    obtain ⟨i, k, hi, hk⟩ := exists_interior_of_no_terminal h
    obtain ⟨j, v, hj, hv⟩ := zeros_reach_terminal cnt i
    have hpath : descend (buildNodes cnt) rootIdx (q ++ zeros (heightOf (buildNodes cnt) i)) = some j := by
      rw [descend_append, hi]
      exact hj
    have hne : zeros (heightOf (buildNodes cnt) i) ≠ [] := fun hnil => by
      rw [hnil] at hj
      obtain rfl : i = j := Option.some.inj hj
      simp [hk] at hv
    exact ⟨v, _, _, codeword_eq_some_iff.2 ⟨j, hpath, hv⟩, hne, rfl⟩

/-- What is left of a codeword's bits is at most 254 of its at most 255 (R161). -/
theorem properPrefix_length_le (h : ProperPrefix (build cnt).2 q) : q.length ≤ 254 := by
  obtain ⟨v, c, r, hc, hr, hcq⟩ := h
  have hcode : codeOf cnt v = q ++ r := (Option.some.inj ((isCodeOf_codeOf cnt v).symm.trans hc)).trans hcq
  have hlen := codeOf_length_le cnt v
  have hpos := List.length_pos_of_ne_nil hr
  rw [hcode, List.length_append] at hlen
  omega

/-- Fewer than 8 zero bits begin the codeword of zeros (R121 line 5). -/
theorem properPrefix_zeros (cnt : FreqTable) {p : Nat} (hp : p ≤ 7) : ProperPrefix (build cnt).2 (zeros p) :=
  properPrefix_iff.2 fun path i v hpath hi => by
    obtain ⟨-, -, -, -, hshort⟩ := allZerosCodewordIsLongest cnt
    obtain ⟨hle, hpath⟩ := List.prefix_replicate_iff.1 hpath
    rw [hpath] at hi
    exact hshort path.length (by omega) i v hi

/-- A walk takes whole codewords off the front and leaves what is not a codeword yet (R158). -/
theorem walks_iff_split {code : Byte → BitSeq} (hcode : IsCodeOf (build cnt).2 code) :
    Walks (build cnt).1 q ys rest ↔ q = ys.flatMap code ++ rest ∧ ProperPrefix (build cnt).2 rest := by
  constructor
  · intro h
    induction h with
    | stop q h => exact ⟨rfl, properPrefix_iff.2 h⟩
    | emit path q out rest i v hpath hleaf _ ih =>
      obtain ⟨rfl, hrest⟩ := ih
      obtain rfl : code v = path := Option.some.inj ((hcode v).symm.trans (codeword_eq_some_iff.2 ⟨i, hpath, hleaf⟩))
      exact ⟨by simp, hrest⟩
  · rintro ⟨rfl, hrest⟩
    induction ys with
    | nil => exact .stop rest (properPrefix_iff.1 hrest)
    | cons y ys ih =>
      obtain ⟨i, hi, hy⟩ := codeword_path (hcode y)
      rw [List.flatMap_cons, List.append_assoc]
      exact .emit (code y) _ ys rest i y hi hy ih

end

/-- Settles O43: the splits are the outcomes of a walk (`walks_iff_split`), and a walk has exactly one outcome
(`walks_iff_walkBits`). -/
theorem walkSplitsTheBits : Obligations.WalkSplitsTheBits := by
  intro cnt code hcode q
  refine ⟨⟨walkBits (build cnt).1 rootPos [] q, ?_, fun p hp => ?_⟩, fun ys rest => walks_iff_split hcode⟩
  · exact (walks_iff_split hcode).1 (walks_iff_walkBits.2 rfl)
  · exact (walks_iff_walkBits.1 ((walks_iff_split hcode).2 hp)).symm

/-! ### What the commands do to unit D (R152 to R156) -/

theorem walk_of_store {u : UnitD} {store : NodeStore} (h : u.node = some store) :
    u.walk = .ok ({ u with inp := (walkBits store rootPos [] u.inp).2 }, (walkBits store rootPos [] u.inp).1) := by
  unfold UnitD.walk
  cases hi : u.inp with
  | nil => cases u; cases hi; rfl
  | cons bit q => simp only [h]

/-- The table the first 16384 bits are the header of (R153). -/
def headerTable (q : BitSeq) : FreqTable := ftDeserialize (bbToBytes (q.take 16384))

theorem headerTable_bits {q : BitSeq} (h : 16384 ≤ q.length) :
    (ftSerialize (headerTable q)).flatMap bits8 = q.take 16384 := by
  have hlen : (q.take 16384).length = 16384 := List.length_take_of_le h
  have hbytes : (bbToBytes (q.take 16384)).length = 2048 := by rw [bbToBytes_length, hlen]
  rw [headerTable, ftSerialize_ftDeserialize hbytes]
  exact flatMap_bbToBytes_of_aligned (by rw [hlen])

section
variable {u : UnitD}

theorem endChunk_waits (hs : u.state = .awaitingHeader) (hl : u.inp.length < 16384) : u.endChunk = .ok (u, []) := by
  simp only [UnitD.endChunk, hs, Config.hdrBits, if_pos hl]

theorem endChunk_reads_header (hs : u.state = .awaitingHeader) (hl : 16384 ≤ u.inp.length) :
    ∃ cnt out rest, u.endChunk = .ok
        ({ u with state := .decoding, inp := rest, cnt := some cnt, node := some (build cnt).1 }, out) ∧
      (ftSerialize cnt).flatMap bits8 = u.inp.take 16384 ∧ Walks (build cnt).1 (u.inp.drop 16384) out rest := by
  refine ⟨headerTable u.inp, _, _, ?_, headerTable_bits hl, walks_iff_walkBits.2 rfl⟩
  have hend : u.endChunk = u.header.walk := by
    simp only [UnitD.endChunk, hs, Config.hdrBits, if_neg (Nat.not_lt.2 hl)]
  rw [hend, walk_of_store (u := u.header) rfl]
  rfl

theorem endChunk_walks {store : NodeStore} (hs : u.state = .decoding) (hn : u.node = some store) :
    ∃ out rest, u.endChunk = .ok ({ u with inp := rest }, out) ∧ Walks store u.inp out rest := by
  refine ⟨_, _, ?_, walks_iff_walkBits.2 rfl⟩
  have hend : u.endChunk = u.walk := by simp only [UnitD.endChunk, hs]
  rw [hend, walk_of_store hn]

end

section
variable {s : State} {u : UnitD} {data : ByteSeq} (hf : s.d.flushed = false)
include hf

theorem exec_dput_of_open (y : Byte) : exec (.dput y) s = .next ({ s with d := s.d.put y }.respondD Response.done) :=
  (exec_dput y s).trans (runD_ok (decoder_refusal_eq_none.2 hf) rfl)

theorem exec_dend_of_endChunk (h : s.d.endChunk = .ok (u, data)) :
    exec .dend s = .next ({ s with d := u }.respondD (Response.okWith 0 data)) :=
  (exec_dend s).trans (runD_ok (decoder_refusal_eq_none.2 hf) h)

theorem exec_dflush_of_endChunk (h : s.d.endChunk = .ok (u, data)) :
    exec .dflush s = .next ({ s with d := u.setFlushed }.respondD (Response.okWith 0 data)) :=
  (exec_dflush s).trans (runD_ok (decoder_refusal_eq_none.2 hf) (by rw [UnitD.flush, h]; rfl))

end

/-- Every command of unit D has the prologue of R151. -/
theorem prologueRefusesD {i : Instr} (hu : i.unit = .d) : PrologueRefusesD i := by
  intro s hf
  obtain ⟨body, hbody⟩ := exec_unitD hu
  rw [hbody]
  exact runD_refused (decoder_refusal_eq_some.2 ⟨hf, rfl⟩)

/-- Unit D refuses the words with its code and the `funct` of a command without an operand, but for the command's own (R77,
R171). -/
theorem accept_other_argD {cw : CmdWord} {f : BitVec 4} (hf : f = 1#4 ∨ f = 2#4) (s : State) (hunit : unitField cw = 3)
    (hfunct : functField cw = f.toNat) (hne : cw ≠ wordOf 3 f 0) : accept cw s = .next (s.respondD ⟨.refused, 1, []⟩) := by
  have hno : Meaningless cw := meaningless_of_other_arg (.inr rfl) hf hunit hfunct hne
  have hd : answerer cw = some .d := (answerer_eq_iff cw).2.2.1.2 (BitVec.eq_of_toNat_eq hunit)
  rw [accept_of_meaningless hno, hd]
  rfl

/-- Settles O41: the row of format Y, and one write of `d_in`. -/
theorem dputBuffersAByte : Obligations.DputBuffersAByte :=
  ⟨fun cw y => decode_eq_ok_iff.trans (wordOf_byte_eq_iff cw 3 0 y), fun _ => prologueRefusesD rfl,
    fun y s hf => ⟨_, exec_dput_of_open hf y, rfl, answersD_respondD s (s.d.put y) _⟩⟩

/-- Settles O42: the three things `DEND` does (`endChunk_waits`, `endChunk_reads_header`, `endChunk_walks`). -/
theorem dendParsesTheHeaderThenWalks : Obligations.DendParsesTheHeaderThenWalks := by
  refine ⟨fun cw => decode_eq_ok_iff.trans eq_comm, fun cw s => accept_other_argD (.inl rfl) s, prologueRefusesD rfl,
    fun s hf => ⟨fun hs hl => ?_, fun hs hl => ?_, fun store hs hn => ?_⟩⟩
  · exact ⟨_, exec_dend_of_endChunk hf (endChunk_waits hs hl), rfl, answersD_respondD ..⟩
  · obtain ⟨cnt, out, rest, hend, hhdr, hwalk⟩ := endChunk_reads_header hs hl
    exact ⟨_, cnt, out, rest, exec_dend_of_endChunk hf hend, rfl, hhdr, hwalk, answersD_respondD ..⟩
  · obtain ⟨out, rest, hend, hwalk⟩ := endChunk_walks hs hn
    exact ⟨_, out, rest, exec_dend_of_endChunk hf hend, rfl, hwalk, answersD_respondD ..⟩

/-- Settles O44: `DFLUSH` has `DEND`'s effect with the flag set on top, and that completes wherever no absent tree would be read
(`endChunk_completes`). -/
theorem dflushIsDendThenClosed : Obligations.DflushIsDendThenClosed := by
  refine ⟨fun cw => decode_eq_ok_iff.trans eq_comm, fun cw s => accept_other_argD (.inr rfl) s, prologueRefusesD rfl,
    fun s hf htree => ?_⟩
  obtain ⟨r, hend⟩ := endChunk_completes htree
  exact ⟨_, exec_dend_of_endChunk hf hend, exec_dflush_of_endChunk hf hend⟩

/-! ### What a `DEND` leaves (R158, R161) -/

/-- Unit D right after a `DEND`: too few bits for a header, or a residual (R33 line 5). -/
structure Settled (u : UnitD) : Prop where
  awaiting : u.state = .awaitingHeader → u.inp.length < 16384
  decoding : u.state = .decoding → ∃ cnt, u.cnt = some cnt ∧ ProperPrefix (build cnt).2 u.inp

theorem properPrefix_of_walks {cnt : FreqTable} {q rest : BitSeq} {out : ByteSeq} (h : Walks (build cnt).1 q out rest) :
    ProperPrefix (build cnt).2 rest :=
  ((walks_iff_split (isCodeOf_codeOf cnt)).1 h).2

/-- A `DEND` leaves a residual, and returns at most one byte for each bit `d_in` held. -/
theorem endChunk_settles {u : UnitD} {r : UnitD × ByteSeq} (hinv : DecoderInv u) (h : u.endChunk = .ok r) :
    Settled r.1 ∧ r.2.length ≤ u.inp.length := by
  cases hs : u.state with
  | awaitingHeader =>
    rcases Nat.lt_or_ge u.inp.length 16384 with hl | hl
    · obtain rfl := Except.ok.inj ((endChunk_waits hs hl).symm.trans h)
      exact ⟨⟨fun _ => hl, by simp [hs]⟩, Nat.zero_le _⟩
    · obtain ⟨cnt, out, rest, hend, -, hwalk⟩ := endChunk_reads_header hs hl
      obtain rfl := Except.ok.inj (hend.symm.trans h)
      have hlen := walks_output_length_le hwalk
      rw [List.length_drop] at hlen
      exact ⟨⟨by simp, fun _ => ⟨cnt, rfl, properPrefix_of_walks hwalk⟩⟩, hlen.trans (Nat.sub_le _ _)⟩
  | decoding =>
    obtain ⟨cnt, hcnt, hnode⟩ := hinv.decoding hs
    obtain ⟨out, rest, hend, hwalk⟩ := endChunk_walks hs hnode
    obtain rfl := Except.ok.inj (hend.symm.trans h)
    exact ⟨⟨by simp [hs], fun _ => ⟨cnt, hcnt, properPrefix_of_walks hwalk⟩⟩, walks_output_length_le hwalk⟩

/-- Settles O46: what a `DEND` leaves (`endChunk_settles`), and the length of a residual (`properPrefix_length_le`). -/
theorem residualIsAProperPrefix : Obligations.ResidualIsAProperPrefix := by
  intro s t hinv hf h
  obtain ⟨r, hend⟩ := endChunk_completes (node_of_decoderInv hinv.decoder)
  obtain ⟨hsettled, hlen⟩ := endChunk_settles hinv.decoder hend
  obtain rfl := Host.Outcome.next.inj ((exec_dend_of_endChunk hf hend).symm.trans h)
  refine ⟨fun hs => ?_, hsettled.awaiting, fun r' hr' => ?_⟩
  · obtain ⟨cnt, hcnt, hres⟩ := hsettled.decoding hs
    exact ⟨cnt, hcnt, hres, properPrefix_length_le hres⟩
  · obtain rfl : Response.okWith 0 r.2 = r' := by simpa using hr'
    exact hlen

/-! ### A session of unit D up to its flush (R158) -/

/-- Unit D before the header step, with bits `q` in `d_in`. -/
def awaitingUnit (q : BitSeq) : UnitD := { UnitD.reset with inp := q }

/-- Unit D after the header step of a table, with bits `q` in `d_in`. -/
def decodingUnit (cnt : FreqTable) (q : BitSeq) : UnitD :=
  { UnitD.reset with state := .decoding, inp := q, cnt := some cnt, node := some (build cnt).1 }

theorem settled_decodingUnit_iff {cnt : FreqTable} {q : BitSeq} :
    Settled (decodingUnit cnt q) ↔ ProperPrefix (build cnt).2 q := by
  refine ⟨fun h => ?_, fun h => ⟨fun hs => (nomatch hs), fun _ => ⟨cnt, rfl, h⟩⟩⟩
  obtain ⟨cnt', hcnt, hres⟩ := h.decoding rfl
  obtain rfl : cnt = cnt' := Option.some.inj hcnt
  exact hres

/-- Unit D in an open session in which bits `q` have come in and `data` has gone out: after the header the bits are the codewords
of what went out and what stands in `d_in`. -/
inductive InDecoding (q : BitSeq) : ByteSeq → UnitD → Prop
  | awaiting : InDecoding q [] (awaitingUnit q)
  | decoding (cnt : FreqTable) (data : ByteSeq) (inp : BitSeq)
      (hbits : q = streamBits cnt data ++ inp) : InDecoding q data (decodingUnit cnt inp)

/-- The codewords a walk takes off the front go from `d_in` to what went out. -/
theorem streamBits_of_walks {cnt : FreqTable} {data out : ByteSeq} {inp rest : BitSeq}
    (h : Walks (build cnt).1 inp out rest) : streamBits cnt data ++ inp = streamBits cnt (data ++ out) ++ rest := by
  obtain ⟨rfl, -⟩ := (walks_iff_split (isCodeOf_codeOf cnt)).1 h
  simp [streamBits]

section
variable {q : BitSeq} {data : ByteSeq} {u : UnitD}

theorem inDecoding_open (h : InDecoding q data u) : u.flushed = false := by
  cases h <;> rfl

theorem decoderInv_of_inDecoding (h : InDecoding q data u) : DecoderInv u := by
  cases h with
  | awaiting => exact ⟨fun _ => ⟨rfl, rfl⟩, fun hs => (nomatch hs)⟩
  | decoding cnt data inp hbits => exact ⟨fun hs => (nomatch hs), fun _ => ⟨cnt, rfl, rfl⟩⟩

theorem inDecoding_put (h : InDecoding q data u) (y : Byte) : InDecoding (bbAppendBytes q [y]) data (u.put y) := by
  cases h with
  | awaiting => exact .awaiting
  | decoding cnt data inp hbits =>
    refine .decoding cnt data (bbAppendBytes inp [y]) ?_
    rw [hbits, bbAppendBytes, List.append_assoc]
    rfl

theorem inDecoding_endChunk (h : InDecoding q data u) :
    ∃ u' out, u.endChunk = .ok (u', out) ∧ InDecoding q (data ++ out) u' := by
  cases h with
  | awaiting =>
    rcases Nat.lt_or_ge q.length 16384 with hl | hl
    · exact ⟨_, _, endChunk_waits (u := awaitingUnit q) rfl hl, .awaiting⟩
    · obtain ⟨cnt, out, rest, hend, hhdr, hwalk⟩ := endChunk_reads_header (u := awaitingUnit q) rfl hl
      refine ⟨_, _, hend, .decoding cnt out rest ?_⟩
      have hdrop := streamBits_of_walks (data := []) hwalk
      rw [List.nil_append] at hdrop
      rw [← hdrop, streamBits, hhdr, List.flatMap_nil, List.append_nil]
      exact (List.take_append_drop ..).symm
  | decoding cnt data inp hbits =>
    obtain ⟨out, rest, hend, hwalk⟩ := endChunk_walks (u := decodingUnit cnt inp) rfl rfl
    exact ⟨_, _, hend, .decoding cnt (data ++ out) rest (hbits.trans (streamBits_of_walks hwalk))⟩

end

/-- The bits of a stream are of one table only, and of one sequence of bytes with a residual (R158). -/
theorem streamBits_residual_inj {cnt cnt' : FreqTable} {ys ys' : ByteSeq} {r r' : BitSeq} (hr : ProperPrefix (build cnt).2 r)
    (hr' : ProperPrefix (build cnt').2 r') (h : streamBits cnt ys ++ r = streamBits cnt' ys' ++ r') :
    cnt = cnt' ∧ ys = ys' ∧ r = r' := by
  have hlen : ((ftSerialize cnt).flatMap bits8).length = ((ftSerialize cnt').flatMap bits8).length := by
    rw [flatMap_bits8_length, flatMap_bits8_length, ftSerialize_length, ftSerialize_length]
  rw [streamBits, streamBits, List.append_assoc, List.append_assoc] at h
  obtain ⟨hhdr, hbits⟩ := List.append_inj h hlen
  obtain rfl : cnt = cnt' := by
    rw [← ftDeserialize_ftSerialize cnt, flatMap_bits8_inj hhdr, ftDeserialize_ftSerialize]
  obtain ⟨hunique, -⟩ := walkSplitsTheBits cnt (codeOf cnt) (isCodeOf_codeOf cnt) (ys.flatMap (codeOf cnt) ++ r)
  exact ⟨rfl, Prod.mk.inj (hunique.unique (y₁ := (ys, r)) (y₂ := (ys', r')) ⟨rfl, hr⟩ ⟨hbits, hr'⟩)⟩

/-- A stream is no shorter than its header. -/
theorem header_length_le (cnt : FreqTable) (ys : ByteSeq) (r : BitSeq) : 16384 ≤ (streamBits cnt ys ++ r).length := by
  rw [streamBits, List.length_append, List.length_append, flatMap_bits8_length, ftSerialize_length]
  omega

/-- Right after a `DEND`, what went out and the state of unit D are fixed by the bits that came in. -/
theorem inDecoding_settled_unique {q : BitSeq} {data data' : ByteSeq} {u u' : UnitD} (h : InDecoding q data u)
    (h' : InDecoding q data' u') (hu : Settled u) (hu' : Settled u') : data = data' ∧ u = u' := by
  cases h with
  | awaiting =>
    cases h' with
    | awaiting => exact ⟨rfl, rfl⟩
    | decoding cnt' data' inp' hbits' => exact absurd (hu.awaiting rfl) (Nat.not_lt.2 (hbits' ▸ header_length_le cnt' data' inp'))
  | decoding cnt data inp hbits =>
    cases h' with
    | awaiting => exact absurd (hu'.awaiting rfl) (Nat.not_lt.2 (hbits ▸ header_length_le cnt data inp))
    | decoding cnt' data' inp' hbits' =>
      have hr := settled_decodingUnit_iff.1 hu
      have hr' := settled_decodingUnit_iff.1 hu'
      obtain ⟨rfl, rfl, rfl⟩ := streamBits_residual_inj hr hr' (hbits.symm.trans hbits')
      exact ⟨rfl, rfl⟩

/-! ### Sessions as runs (R158, R159) -/

/-- The command of the decoder's session that an event stands for: a byte is its `DPUT`, `none` is a `DEND`. -/
def decoderEvent : Option Byte → HostInput
  | some y => issue (.dput y)
  | none => issue .dend

/-- One `DPUT` or `DEND` of an open session: the byte, if any, comes in, and the data of the response goes out. -/
theorem decoderEvent_step {s : State} {q : BitSeq} {data : ByteSeq} (h : InDecoding q data s.d) (event : Option Byte) :
    ∃ u out, InDecoding (bbAppendBytes q event.toList) (data ++ out) u ∧
      ∀ ins, runInputs (decoderEvent event :: ins) s = runInputs ins ({ s with d := u }.respondD (Response.okWith 0 out)) := by
  cases event with
  | some y =>
    exact ⟨s.d.put y, [], by simpa using inDecoding_put h y,
      runInputs_command (decode_encode _) (exec_dput_of_open (inDecoding_open h) y)⟩
  | none =>
    obtain ⟨u, out, hend, hu⟩ := inDecoding_endChunk h
    exact ⟨u, out, by simpa [bbAppendBytes] using hu,
      runInputs_command (decode_encode _) (exec_dend_of_endChunk (inDecoding_open h) hend)⟩

/-- The rest of a session, from any point of it: the flush ends as a `DEND` does. -/
theorem decoder_session_rest (events : List (Option Byte)) {s : State} {q : BitSeq} {data : ByteSeq}
    (h : InDecoding q data s.d) :
    ∃ t rs u, runInputs (events.map decoderEvent ++ [issue .dflush]) s = .next t ∧ t.respD = s.respD ++ rs ∧
      t.d = u.setFlushed ∧ InDecoding (bbAppendBytes q (events.filterMap id)) (data ++ dataOf rs) u ∧ Settled u := by
  induction events generalizing s q data with
  | nil =>
    obtain ⟨u, out, hend, hu⟩ := inDecoding_endChunk h
    obtain ⟨hsettled, -⟩ := endChunk_settles (decoderInv_of_inDecoding h) hend
    refine ⟨_, [Response.okWith 0 out], u,
      runInputs_command (decode_encode _) (exec_dflush_of_endChunk (inDecoding_open h) hend) [], rfl, rfl, ?_, hsettled⟩
    simpa [bbAppendBytes, dataOf, Response.okWith] using hu
  | cons event events ih =>
    obtain ⟨u, out, hu, hrun⟩ := decoderEvent_step h event
    obtain ⟨t, rs, u', ht, hresp, hd, hin, hsettled⟩ := ih (s := { s with d := u }.respondD (Response.okWith 0 out)) hu
    have hq : bbAppendBytes q ((event :: events).filterMap id) =
        bbAppendBytes (bbAppendBytes q event.toList) (events.filterMap id) := by
      rw [← bbAppendBytes_append]
      cases event <;> rfl
    refine ⟨t, Response.okWith 0 out :: rs, u', (hrun _).trans ht, ?_, hd, ?_, hsettled⟩
    · rw [hresp, respondD_respD, List.append_assoc]
      rfl
    · rw [hq, dataOf_cons, ← List.append_assoc]
      exact hin

theorem dSession_eq (chunks : List ByteSeq) :
    dSession chunks = .resetD :: ((chunkEvents chunks).map decoderEvent ++ [issue .dflush]) := by
  have hchunk (ys : ByteSeq) : dProcess ys = (ys.map some ++ [none]).map decoderEvent := by
    simp [dProcess, decoderEvent, Function.comp_def]
  rw [dSession, chunkEvents, List.map_flatMap, funext hchunk]

/-- A session of chunks, from any state: all the bits of the joined bytes have come in, and the last command left a residual. -/
theorem decoder_session (s : State) (chunks : List ByteSeq) :
    ∃ t rs u, runInputs (dSession chunks) s = .next t ∧ t.respD = s.respD ++ rs ∧ t.d = u.setFlushed ∧
      InDecoding (chunks.flatten.flatMap bits8) (dataOf rs) u ∧ Settled u := by
  rw [dSession_eq, runInputs_resetD, ← filterMap_chunkEvents]
  exact decoder_session_rest (chunkEvents chunks) (s := s.resetD) (q := []) (data := []) .awaiting

/-- Settles O57: each session ends with what its joined bytes fix (`inDecoding_settled_unique`). -/
theorem decodingIsChunkSplitStable : Obligations.DecodingIsChunkSplitStable := by
  intro s chunks₁ chunks₂ h
  obtain ⟨t₁, rs₁, u₁, ht₁, hresp₁, hd₁, hin₁, hu₁⟩ := decoder_session s chunks₁
  obtain ⟨t₂, rs₂, u₂, ht₂, hresp₂, hd₂, hin₂, hu₂⟩ := decoder_session s chunks₂
  rw [← h] at hin₂
  obtain ⟨hdata, rfl⟩ := inDecoding_settled_unique hin₁ hin₂ hu₁ hu₂
  exact ⟨t₁, t₂, rs₁, rs₂, ht₁, ht₂, hresp₁, hresp₂, hdata, hd₁.trans hd₂.symm⟩

/-- A session that is given a table's header and the packed codewords of bytes returns the bytes and keeps the padding: zero bits,
too few for a codeword. -/
theorem decoder_session_of_stream (s : State) (cnt : FreqTable) (ys : ByteSeq) (cuts : List ByteSeq)
    (h : cuts.flatten = ftSerialize cnt ++ bbToBytes (ys.flatMap (codeOf cnt))) :
    ∃ u rs p, runInputs (dSession cuts) s = .next u ∧ u.respD = s.respD ++ rs ∧ dataOf rs = ys ∧
      u.d.inp = zeros p ∧ p ≤ 7 := by
  obtain ⟨p, hp, hbits⟩ : ∃ p ≤ 7, cuts.flatten.flatMap bits8 = streamBits cnt ys ++ zeros p := by
    refine ⟨(8 - (ys.flatMap (codeOf cnt)).length % 8) % 8, by omega, ?_⟩
    rw [h, List.flatMap_append, flatMap_bbToBytes, streamBits, List.append_assoc]
  obtain ⟨t, rs, u, ht, hresp, hd, hin, hu⟩ := decoder_session s cuts
  have hend := settled_decodingUnit_iff.2 (properPrefix_zeros cnt hp)
  obtain ⟨hdata, rfl⟩ := inDecoding_settled_unique hin (.decoding cnt ys (zeros p) hbits) hu hend
  exact ⟨t, rs, p, ht, hresp, hdata, congrArg UnitD.inp hd, hp⟩

/-- Settles O58: the encoder's session gives the stream of a table (`chunk_session`), and the decoder's session undoes such a
stream (`decoder_session_of_stream`). -/
theorem decodingTheStreamGivesTheBytesBack : Obligations.DecodingTheStreamGivesTheBytesBack := by
  intro s l chunks
  obtain ⟨t, rs, ht, hresp, -, hdata⟩ := chunk_session s l chunks
  exact ⟨t, rs, ht, hresp, fun cuts hcuts => decoder_session_of_stream t _ _ cuts (hcuts.trans hdata)⟩

end Sys2Proof.Proofs
end

section
/-! PROOFS. The family of spec/60_exceptions.md: which cause an illegal word, a halted unit and a flushed unit report, and in which
order (R172, R173, R178); what a `FATAL` response says of the command and the state after it (R174); and the idle step (R182). -/

namespace Sys2Proof.Proofs

open Sys2Proof Sys2Proof.Machine Sys2Proof.Safety Sys2Proof.Laws

/-! ### A `FATAL` response (R174) -/

/-- Where a log has grown by one response, the response is the one that was given. -/
theorem logged_iff {log : List Response} {given : Prop} [Decidable given] {r r' : Response} :
    log ++ (if given then [r] else []) = log ++ [r'] ↔ given ∧ r = r' := by
  by_cases h : given <;> simp [h]

theorem unit_of_respE {i : Instr} {s t : State} {r : Response} (h : exec i s = .next t) (hr : t.respE = s.respE ++ [r]) :
    i.unit = .e := by
  obtain ⟨_, -, -, he, -, -⟩ := exec_response h
  exact (logged_iff.1 (he.symm.trans hr)).1

/-- Only the roll-back of an index miss answers `FATAL`: a refusal answers `REFUSED`, and a command that has its effect `OK`. -/
theorem runE_fatal {body : UnitE → Option (UnitE × ByteSeq)} {s t : State} {r : Response} (h : runE body s = .next t)
    (hr : t.respE = s.respE ++ [r]) (hst : r.st = .fatal) :
    r = Response.ofCause .indexMiss ∧ t = { s with e := s.e.setFatal }.respondE r := by
  rcases runE_cases body s with ⟨c, hc, hrun⟩ | ⟨-, -, hrun⟩ | ⟨p, -, -, hrun⟩ <;> rw [hrun] at h <;> cases h <;>
    obtain rfl := List.singleton_inj.1 (List.append_cancel_left hr)
  · rcases encoder_refusal_eq_some.1 hc with ⟨-, rfl⟩ | ⟨-, -, rfl⟩ <;> cases hst
  · exact ⟨rfl, rfl⟩
  · cases hst

/-- Whatever command answers `FATAL`, it is an index miss, rolled back. -/
theorem exec_fatal {i : Instr} {s t : State} {r : Response} (h : exec i s = .next t) (hr : t.respE = s.respE ++ [r])
    (hst : r.st = .fatal) : r = Response.ofCause .indexMiss ∧ t = { s with e := s.e.setFatal }.respondE r := by
  obtain ⟨body, hbody⟩ := exec_unitE (unit_of_respE h hr)
  exact runE_fatal (hbody s ▸ h) hr hst

/-- A command keeps an invariant state unhalted. -/
theorem exec_keeps_unhalted {i : Instr} {s t : State} (hinv : BlockInv s) (h : exec i s = .next t) : t.e.fatal = false :=
  (encoderInv_of_effect hinv.encoder (exec_encoderEffect h)).fatal

/-- Settles O34: a `FATAL` response is the roll-back of an index miss (`exec_fatal`), which leaves the unit halted, and a command
that starts in an invariant state does not (`exec_keeps_unhalted`). -/
theorem indexMissIsFatalAndUnreachable : Obligations.IndexMissIsFatalAndUnreachable := by
  refine ⟨fun y s ho hs hc => ?_, fun i s t r h hr hst => ?_, fun i s t r hinv h hr hst => ?_⟩
  · exact ⟨_, exec_eput_of_miss ho ((put_encodes hs).trans (by rw [hc]; rfl)), rfl, answersE_respondE ..⟩
  · obtain ⟨rfl, rfl⟩ := exec_fatal h hr hst
    exact ⟨rfl, rfl, answersE_respondE ..⟩
  · obtain ⟨-, rfl⟩ := exec_fatal h hr hst
    exact absurd (exec_keeps_unhalted hinv h) (by simp)

/-! ### Halted and flushed units (R172, R173) -/

section
variable {i : Instr} {s : State}

theorem exec_halted (hu : i.unit = .e) (hf : s.e.fatal = true) : exec i s = .next (s.respondE ⟨.refused, 2, []⟩) := by
  simpa [hf] using prologueRefusesE hu s (.inl hf)

theorem exec_flushedE (hu : i.unit = .e) (hf : s.e.fatal = false) (hflushed : s.e.flushed = true) :
    exec i s = .next (s.respondE ⟨.refused, 3, []⟩) := by
  simpa [hf] using prologueRefusesE hu s (.inr hflushed)

end

/-- Of the forms of a response, only the refusal of a halted unit E carries cause 2. -/
theorem unit_of_responseForm_halted {i : Instr} {r : Response} (h : ResponseForm i r) (hr : r = ⟨.refused, 2, []⟩) :
    i.unit = .e := by
  cases h with
  | halted hu => exact hu
  | done | absent | flushed | miss => cases hr

/-- Settles O38: the prologue of unit E refuses (`exec_halted`), and the response units B and D log has another form. -/
theorem haltedEncoderRefusesEverything : Obligations.HaltedEncoderRefusesEverything := by
  refine ⟨fun i s hu hf => ⟨_, exec_halted hu hf, rfl, answersE_respondE s s.e _⟩, fun i s t r hu h hlog hr => hu ?_⟩
  obtain ⟨r', hform, hb, -, hd, -⟩ := exec_response h
  obtain rfl : r' = r := by
    rcases hlog with hlog | hlog
    · exact (logged_iff.1 (hb.symm.trans hlog)).2
    · exact (logged_iff.1 (hd.symm.trans hlog)).2
  exact unit_of_responseForm_halted hform hr

/-- Settles O39, by the prologue of each unit. -/
theorem flushedUnitRefusesEverything : Obligations.FlushedUnitRefusesEverything :=
  ⟨fun _ s hu hf hflushed => ⟨_, exec_flushedE hu hf hflushed, rfl, answersE_respondE s s.e _⟩,
    fun _ s hu hflushed => ⟨_, prologueRefusesD hu s hflushed, rfl, answersD_respondD s s.d _⟩⟩

/-! ### The order of the causes (R178) -/

/-- Unit D refuses the words without meaning that carry its code (R77, R171). -/
theorem accept_meaninglessD {cw : CmdWord} (h : Meaningless cw) (hunit : unitField cw = 3) (s : State) :
    accept cw s = .next (s.respondD ⟨.refused, 1, []⟩) := by
  have hd : answerer cw = some .d := (answerer_eq_iff cw).2.2.1.2 (BitVec.eq_of_toNat_eq hunit)
  rw [accept_of_meaningless h, hd]
  rfl

/-- Settles O40: an illegal word never gets to the prologue, the prologue asks for the halt first, and a command it refuses never
gets to the code index. -/
theorem causesFollowTheirPriority : Obligations.CausesFollowTheirPriority :=
  ⟨fun _ _ s h hunit => accept_meaninglessE (meaningless_of_decode_error h) hunit s,
    fun _ _ s h hunit => accept_meaninglessD (meaningless_of_decode_error h) hunit s,
    fun _ _ => exec_halted, fun _ _ hf hflushed _ => exec_flushedE rfl hf hflushed⟩

/-! ### The idle step (R182) -/

/-- Settles O7: each other case of a step (`step_cases`) has an input waiting. -/
theorem idleBlockKeepsItsState : Obligations.IdleBlockKeepsItsState := by
  intro s hidle
  rcases step_cases s with ⟨-, hs⟩ | ⟨_, _, hi, -⟩ | ⟨_, hi, -⟩ | ⟨_, _, hi, -⟩ | ⟨_, hi, -⟩
  · exact hs
  all_goals rw [hidle] at hi; cases hi

end Sys2Proof.Proofs
end

section
/-! PROOFS. The family of spec/70_reset_and_hazards.md: what a reset input writes and what it leaves as it was (R190, R191), and that
every input the host issues is carried out (R202). -/

namespace Sys2Proof.Proofs

open Sys2Proof Sys2Proof.Machine Sys2Proof.Safety Sys2Proof.Laws

/-! ### Every input is carried out (R202) -/

/-- Settles O53: under the invariants unit D never walks without a tree, the one thing that stops a step (`step_completes`). -/
theorem noStepStops : Obligations.NoStepStops := fun _ => step_completes

/-! ### The resets of single units (R190, R191) -/

/-- Every counter is 0 after reset (R191). -/
@[simp] theorem count_empty (v : Byte) : FreqTable.empty.count v = 0 := Vector.getElem_replicate v.isLt

/-- No byte has a codeword after reset (R191). -/
@[simp] theorem codeword_absent (v : Byte) : CodeIndex.absent.codeword v = none := Vector.getElem_replicate v.isLt

section
variable {s : State} {rest : List HostInput}

theorem step_resetB (h : s.inbox = .resetB :: rest) : step s = .next { s with inbox := rest }.resetB := by
  rw [step, State.takeInput, h]

theorem step_resetE {l : Config.Threshold} (h : s.inbox = .resetE l :: rest) :
    step s = .next ({ s with inbox := rest }.resetE l) := by
  rw [step, State.takeInput, h]

theorem step_resetD (h : s.inbox = .resetD :: rest) : step s = .next { s with inbox := rest }.resetD := by
  rw [step, State.takeInput, h]

end

/-- Settles O6: a reset input is the reset of its unit, whose fields are the values of R191 by definition; the counters and the code
index have theirs at every byte (`count_empty`, `codeword_absent`). -/
theorem resetGivesSpecValues : Obligations.ResetGivesSpecValues :=
  ⟨fun _ _ => step_resetB,
    fun _ _ _ h => ⟨UnitE.reset, step_resetE h, rfl, rfl, rfl, count_empty, rfl, rfl, rfl, codeword_absent, rfl⟩,
    fun _ _ => step_resetD, rfl, rfl⟩

end Sys2Proof.Proofs
end
